-- ==== Sys2Proof/Word.lean ====
section
/-! DEFINITION. The words AESP-CORE computes on: the byte (`u8`), the 32-bit register value (`u32`), the four-byte word
of the key schedule, and the 4x4 block state. Only the shapes stand here; every operation on them is under `Machine/`. -/

namespace Sys2Proof

/-- `u8` (00_scope.md R8): an element of GF(2^8), a key byte, an S-box index. -/
abbrev Byte := BitVec 8

/-- `u32` (00_scope.md R8): a register value on the host's bus, a command word. -/
abbrev Word := BitVec 32

/-- Four bytes, byte 0 first: a word `(w.0, w.1, w.2, w.3)` of the key schedule (42_key_expansion.md R131), or one column
of the block state, row 0 first (10_state.md R22). -/
structure Quad where
  b0 : Byte
  b1 : Byte
  b2 : Byte
  b3 : Byte
deriving DecidableEq, Repr

/-- The block state matrix `S[r][c]` as its four columns, column 0 first (10_state.md R22: the column-major mapping). -/
structure Block where
  c0 : Quad
  c1 : Quad
  c2 : Quad
  c3 : Quad
deriving DecidableEq, Repr

end Sys2Proof
end

