-- ==== Sys2Proof/Syntax.lean ====
section
/-! DEFINITION. The fifteen commands of AESP-CORE, one constructor for each row of spec/opcode_table.json
(30_encoding.md R82). -/

namespace Sys2Proof

/-- A command (30_encoding.md R81, R82). The only explicit operands are a round index and one or two bytes; the round
index is used as a number, so it is a `Nat`, which `Instr.wellFormed` bounds (log 14). -/
inductive Instr where
  | nop
  | kexp
  | enc
  | dec
  | ark (rnd : Nat)
  | sb
  | isb
  | sr
  | isr
  | mc
  | imc
  | xtime (a : Byte)
  | gmul (a b : Byte)
  | sbox (a : Byte)
  | isbox (a : Byte)
deriving DecidableEq, Repr

end Sys2Proof
end

