-- ==== Sys2Proof/WellFormed.lean ====
section
/-! DEFINITION. Which commands the 32-bit format can spell (30_encoding.md R81, R86). -/

namespace Sys2Proof

/-- 30_encoding.md R81, R86: `rnd` is an unsigned round index 0..15. Byte operands are in range by their type. Whether
`rnd ≤ STATUS.NR` is no matter of form: it is checked at acceptance (R85). -/
def Instr.wellFormed : Instr → Bool
  | .ark rnd => rnd ≤ 15
  | .nop | .kexp | .enc | .dec | .sb | .isb | .sr | .isr | .mc | .imc => true
  | .xtime _ | .gmul _ _ | .sbox _ | .isbox _ => true

end Sys2Proof
end

