-- ==== Sys2Proof/Decode.lean ====
section
/-! DEFINITION. The command word (30_encoding.md R80 to R85): its fields, the decoder, the opcode map, and the encoder. -/

namespace Sys2Proof

/-! ### The fields of format C (R80) -/

/-- `op = w[7:0]`. -/
def opField (w : Word) : Byte := w.extractLsb' 0 8

/-- `rnd = w[11:8]`. -/
def rndField (w : Word) : BitVec 4 := w.extractLsb' 8 4

/-- `rsv = w[15:12]`. -/
def rsvField (w : Word) : BitVec 4 := w.extractLsb' 12 4

/-- `a = w[23:16]`. -/
def aField (w : Word) : Byte := w.extractLsb' 16 8

/-- `b = w[31:24]`. -/
def bField (w : Word) : Byte := w.extractLsb' 24 8

/-! ### The decoder (R85) -/

/-- Why a word is Illegal (30_encoding.md R84). Every reason raises the same error, IllegalCommand (code 4). -/
inductive Illegal where
  /-- `rsv = w[15:12]` is not 0. -/
  | reservedField
  /-- `w[7:0]` is no opcode of R82. -/
  | undefinedOpcode
  /-- A field that the opcode does not use is not 0. -/
  | unusedField
deriving DecidableEq, Repr

/-- The decoder's answer: `Command or Illegal` (30_encoding.md R85). -/
inductive Decoded where
  | command (i : Instr)
  | illegal (why : Illegal)
deriving DecidableEq, Repr

/-- A line `if <unused fields are 0> then <command> else Illegal` of R85. -/
def commandIf (unusedAreZero : Bool) (i : Instr) : Decoded :=
  if unusedAreZero then .command i else .illegal .unusedField

/-- The `case op of` of R85. -/
def decodeFields (op : Byte) (rnd : BitVec 4) (a b : Byte) : Decoded :=
  if op = 0x00 then commandIf (rnd = 0 ∧ a = 0 ∧ b = 0) .nop
  else if op = 0x01 then commandIf (rnd = 0 ∧ a = 0 ∧ b = 0) .kexp
  else if op = 0x02 then commandIf (rnd = 0 ∧ a = 0 ∧ b = 0) .enc
  else if op = 0x03 then commandIf (rnd = 0 ∧ a = 0 ∧ b = 0) .dec
  else if op = 0x10 then commandIf (a = 0 ∧ b = 0) (.ark rnd.toNat)
  else if op = 0x11 then commandIf (rnd = 0 ∧ a = 0 ∧ b = 0) .sb
  else if op = 0x12 then commandIf (rnd = 0 ∧ a = 0 ∧ b = 0) .isb
  else if op = 0x13 then commandIf (rnd = 0 ∧ a = 0 ∧ b = 0) .sr
  else if op = 0x14 then commandIf (rnd = 0 ∧ a = 0 ∧ b = 0) .isr
  else if op = 0x15 then commandIf (rnd = 0 ∧ a = 0 ∧ b = 0) .mc
  else if op = 0x16 then commandIf (rnd = 0 ∧ a = 0 ∧ b = 0) .imc
  else if op = 0x20 then commandIf (rnd = 0 ∧ b = 0) (.xtime a)
  else if op = 0x21 then commandIf (rnd = 0) (.gmul a b)
  else if op = 0x22 then commandIf (rnd = 0 ∧ b = 0) (.sbox a)
  else if op = 0x23 then commandIf (rnd = 0 ∧ b = 0) (.isbox a)
  else .illegal .undefinedOpcode

/-- `decode(w)` of 30_encoding.md R85: total on every 32-bit word. -/
def decode (w : Word) : Decoded :=
  if rsvField w ≠ 0 then .illegal .reservedField
  else decodeFields (opField w) (rndField w) (aField w) (bField w)

/-- The instruction the decoder reads from a table row's word, whose bits are numbered as spec/opcode_table.json numbers
them (bit 0 is bit 0 of the one 32-bit word); the bits from `nbits` up are 0. -/
def decodeTableWord (nbits w : Nat) : Option Instr :=
  let bits := w % 2 ^ nbits
  if bits < 2 ^ 32 then
    match decode (BitVec.ofNat 32 bits) with
    | .command i => some i
    | .illegal _ => none
  else none

/-! ### The encoder (R83) and the opcode map (R82) -/

/-- A command word put together from its fields: `{b, a, rsv = 0, rnd, op}` (30_encoding.md R80). -/
def commandWord (op : Byte) (rnd : BitVec 4) (a b : Byte) : Word :=
  op.setWidth 32 ||| (rnd.setWidth 32 <<< 8) ||| (a.setWidth 32 <<< 16) ||| (b.setWidth 32 <<< 24)

/-- `enc(X)` of 30_encoding.md R83. A round index above 15 spells no command; the encoder keeps `r[3:0]` of it. -/
def encode : Instr → Word
  | .nop => commandWord 0x00 0 0 0
  | .kexp => commandWord 0x01 0 0 0
  | .enc => commandWord 0x02 0 0 0
  | .dec => commandWord 0x03 0 0 0
  | .ark rnd => commandWord 0x10 (BitVec.ofNat 4 rnd) 0 0
  | .sb => commandWord 0x11 0 0 0
  | .isb => commandWord 0x12 0 0 0
  | .sr => commandWord 0x13 0 0 0
  | .isr => commandWord 0x14 0 0 0
  | .mc => commandWord 0x15 0 0 0
  | .imc => commandWord 0x16 0 0 0
  | .xtime a => commandWord 0x20 0 a 0
  | .gmul a b => commandWord 0x21 0 a b
  | .sbox a => commandWord 0x22 0 a 0
  | .isbox a => commandWord 0x23 0 a 0

/-- One row of the opcode map (30_encoding.md R82). -/
structure OpcodeRow where
  mnemonic : String
  pattern  : Word
  mask     : Word
deriving DecidableEq, Repr

/-- 30_encoding.md R82: a word spells the command in a row exactly when `w & mask = match`. -/
def OpcodeRow.spells (row : OpcodeRow) (w : Word) : Bool := w &&& row.mask = row.pattern

/-- The table row a command belongs to (30_encoding.md R82). -/
def Instr.row : Instr → OpcodeRow
  | .nop => ⟨"NOP", 0x00000000, 0xFFFFFFFF⟩
  | .kexp => ⟨"KEXP", 0x00000001, 0xFFFFFFFF⟩
  | .enc => ⟨"ENC", 0x00000002, 0xFFFFFFFF⟩
  | .dec => ⟨"DEC", 0x00000003, 0xFFFFFFFF⟩
  | .ark _ => ⟨"ARK", 0x00000010, 0xFFFFF0FF⟩
  | .sb => ⟨"SB", 0x00000011, 0xFFFFFFFF⟩
  | .isb => ⟨"ISB", 0x00000012, 0xFFFFFFFF⟩
  | .sr => ⟨"SR", 0x00000013, 0xFFFFFFFF⟩
  | .isr => ⟨"ISR", 0x00000014, 0xFFFFFFFF⟩
  | .mc => ⟨"MC", 0x00000015, 0xFFFFFFFF⟩
  | .imc => ⟨"IMC", 0x00000016, 0xFFFFFFFF⟩
  | .xtime _ => ⟨"XTIME", 0x00000020, 0xFF00FFFF⟩
  | .gmul _ _ => ⟨"GMUL", 0x00000021, 0x0000FFFF⟩
  | .sbox _ => ⟨"SBOX", 0x00000022, 0xFF00FFFF⟩
  | .isbox _ => ⟨"ISBOX", 0x00000023, 0xFF00FFFF⟩

/-- The fifteen rows of the opcode map, in its order (30_encoding.md R82). -/
def opcodeTable : List OpcodeRow :=
  [Instr.row .nop, Instr.row .kexp, Instr.row .enc, Instr.row .dec, Instr.row (.ark 0)] ++
  [Instr.row .sb, Instr.row .isb, Instr.row .sr, Instr.row .isr, Instr.row .mc, Instr.row .imc] ++
  [Instr.row (.xtime 0), Instr.row (.gmul 0 0), Instr.row (.sbox 0), Instr.row (.isbox 0)]

end Sys2Proof
end

