-- ==== Sys2Proof/Config.lean ====
section
/-! DEFINITION. What the spec leaves open (00_scope.md R7), as constants with no body: nothing can be proved of their
values. `LAT(op)` has no constant here: it is the place of the core's slot in `State.inputs` (log 8). -/

namespace Sys2Proof

/-- `BASE / 4096`. `BASE` is 4096-byte aligned and otherwise the platform's choice (00_scope.md R7, log 7). -/
opaque Config.basePage : Nat

/-- `busyRead` (00_scope.md R7, 20_memory.md R61): the value of the n-th read of STATEc, RKWi or GFRES made while BUSY = 1.
FREE VALUE, log 5: any 32-bit value, a fresh one for each such read. -/
opaque Config.busyRead : Nat → Word

end Sys2Proof
end

