-- ==== Sys2Proof/Machine/State.lean ====
section
/-! DEFINITION. The state of one AESP-CORE instance (10_state.md), its value after reset, and the reasons a step can stop. -/

namespace Sys2Proof.Machine

/-- The fields of the STATUS register that hold state (10_state.md R28). The reserved bits and ERRCLR read 0 and hold
nothing; the 32-bit view is `statusWord`. -/
structure Status where
  /-- bit 0: a command is pending (R29). -/
  busy  : Bool
  /-- bit 1: W holds a complete RoundKeySet (R30). -/
  valid : Bool
  /-- bits 7:4: the sticky error code (R31). -/
  err   : BitVec 4
  /-- bits 11:8: Nk of the current RoundKeySet (R32). -/
  nk    : BitVec 4
  /-- bits 15:12: Nr of the current RoundKeySet (R32). -/
  nr    : BitVec 4
deriving DecidableEq, Repr

/-- The width of a host access (20_memory.md R51): only 32 bits is served. -/
inductive Width where
  | w8
  | w16
  | w32
deriving DecidableEq, Repr

/-- One host access to the register window, by byte offset from BASE (20_memory.md R50, R51). Twelve bits reach exactly
the 4096 bytes of the window. -/
inductive Access where
  | read (width : Width) (off : BitVec 12)
  | write (width : Width) (off : BitVec 12) (v : Word)
deriving DecidableEq, Repr

/-- One step of one agent (10_state.md R20). -/
inductive Event where
  /-- the host makes an access. -/
  | host (a : Access)
  /-- the core has its turn: it completes the pending command. -/
  | core
  /-- the platform asserts reset (70_reset_and_hazards.md R230). -/
  | reset
deriving DecidableEq, Repr

/-- What the bus last answered the host. -/
inductive Reply where
  /-- nothing yet. -/
  | none
  /-- a read returned this value. -/
  | data (v : Word)
  /-- a write was taken (performed, dropped or ignored, as the register's rule says). -/
  | done
deriving DecidableEq, Repr

/-- The state of one instance. The first seven fields are the spec's (10_state.md R42); `inputs`, `reply` and `draws` are
the model's own: the agents' interleaving, the host's side of the bus, and the index of the next free value. -/
structure State where
  /-- the block state matrix (R22). -/
  S      : Block
  /-- the master key file, KEY0..KEY7; key byte `4j + b` is byte `b` of word `j` (R23, 20_memory.md R54). -/
  K      : Vector Quad 8
  /-- the key length in bytes (R24). -/
  keylen : Byte
  /-- the round-key word file (R25). -/
  W      : Vector Quad 60
  /-- the field result register (R27). -/
  gfres  : Byte
  /-- the STATUS register's fields (R28). -/
  status : Status
  /-- PEND: the accepted command that has not completed (R35). -/
  pend   : Option Word
  /-- whose step comes next, and after it, and so on (R20; the model's own, log 1). -/
  inputs : List Event
  /-- the bus's last answer to the host (the model's own, log 6). -/
  reply  : Reply
  /-- how many busy reads have drawn a value (20_memory.md R61; the model's own, log 5). -/
  draws  : Nat
deriving DecidableEq, Repr

/-- Why the machine stops with a fault. -/
inductive Fault where
  /-- `BusError(off)` (20_memory.md R51): the host made an access that is not an aligned 32-bit one. Raised by
  `hostStep` for the host's access alone, never by a command; no state of the core has changed. Safe: the hardware goes on
  where the model stops (log 4). -/
  | busError (off : BitVec 12)
deriving DecidableEq, Repr

/-- Why the machine has no meaning for an instruction. -/
inductive Refusal where
  /-- Raised by an arm of `exec` for an instruction that has no meaning yet; no arm does. Safe. -/
  | notModelled (mnemonic : String)
deriving DecidableEq, Repr

/-- STATUS after reset: every field 0 (10_state.md R42). -/
def Status.reset : Status := { busy := false, valid := false, err := 0, nk := 0, nr := 0 }

/-- The machine right after reset: every piece of state zero and PEND empty (10_state.md R42). The model's own fields:
no input yet, no answer yet, no draw yet (logs 1, 6, 5). -/
def State.reset : State where
  S := ⟨⟨0, 0, 0, 0⟩, ⟨0, 0, 0, 0⟩, ⟨0, 0, 0, 0⟩, ⟨0, 0, 0, 0⟩⟩
  K := Vector.replicate 8 ⟨0, 0, 0, 0⟩
  keylen := 0
  W := Vector.replicate 60 ⟨0, 0, 0, 0⟩
  gfres := 0
  status := Status.reset
  pend := Option.none
  inputs := []
  reply := .none
  draws := 0

end Sys2Proof.Machine
end

