-- ==== Sys2Proof/Machine/Ops.lean ====
section
/-! DEFINITION. The operations every command and every host access is built from: the four-byte word and the block state
by index and as a register value, and the one way an error is raised, cleared, and a command accepted and retired. -/

namespace Sys2Proof.Machine

/-! ### Four-byte words -/

/-- Byte `i` of a word, or row `i` of a column (42_key_expansion.md R131, 10_state.md R22). -/
def quadGet (w : Quad) : Fin 4 → Byte
  | 0 => w.b0
  | 1 => w.b1
  | 2 => w.b2
  | 3 => w.b3

/-- The word whose byte `i` is `f i`. -/
def quadOf (f : Fin 4 → Byte) : Quad := ⟨f 0, f 1, f 2, f 3⟩

/-- The all-zero word. -/
def quadZero : Quad := ⟨0, 0, 0, 0⟩

/-- `^` on words is byte-wise XOR (42_key_expansion.md R134). -/
def quadXor (v w : Quad) : Quad := ⟨v.b0 ^^^ w.b0, v.b1 ^^^ w.b1, v.b2 ^^^ w.b2, v.b3 ^^^ w.b3⟩

/-- A byte function on each byte of a word. -/
def quadMap (f : Byte → Byte) (w : Quad) : Quad := ⟨f w.b0, f w.b1, f w.b2, f w.b3⟩

/-- The register value of four bytes: the first in bits 31:24, the fourth in bits 7:0 (20_memory.md R53, R54, R56, R60). -/
def quadToWord (w : Quad) : Word := w.b0 ++ w.b1 ++ w.b2 ++ w.b3

/-- The four bytes of a register value, bits 31:24 first (20_memory.md R53, R54, R60). -/
def quadOfWord (v : Word) : Quad :=
  ⟨v.extractLsb' 24 8, v.extractLsb' 16 8, v.extractLsb' 8 8, v.extractLsb' 0 8⟩

/-! ### The block state -/

/-- Column `c` of the block state. -/
def blockColumn (T : Block) : Fin 4 → Quad
  | 0 => T.c0
  | 1 => T.c1
  | 2 => T.c2
  | 3 => T.c3

/-- The block state with column `c` replaced. -/
def blockSetColumn (T : Block) (c : Fin 4) (q : Quad) : Block :=
  match c with
  | 0 => { T with c0 := q }
  | 1 => { T with c1 := q }
  | 2 => { T with c2 := q }
  | 3 => { T with c3 := q }

/-- `T[r][c]`: row `r`, column `c` (10_state.md R22). -/
def blockGet (T : Block) (r c : Fin 4) : Byte := quadGet (blockColumn T c) r

/-- The block state with `T[r][c] = f r c`. -/
def blockOf (f : Fin 4 → Fin 4 → Byte) : Block :=
  ⟨quadOf (f · 0), quadOf (f · 1), quadOf (f · 2), quadOf (f · 3)⟩

/-- A function of one column on each column. -/
def blockMapColumns (f : Quad → Quad) (T : Block) : Block := ⟨f T.c0, f T.c1, f T.c2, f T.c3⟩

/-- `bytesToState(x)[r][c] = x[4c + r]` (10_state.md R22). -/
def bytesToState (x : Fin 16 → Byte) : Block := blockOf fun r c => x ⟨4 * c.val + r.val, by omega⟩

/-- `stateToBytes(S)[k] = S[k mod 4][k div 4]` (10_state.md R22). -/
def stateToBytes (T : Block) (k : Fin 16) : Byte :=
  blockGet T ⟨k.val % 4, Nat.mod_lt _ (by decide)⟩ ⟨k.val / 4, by omega⟩

/-! ### Errors (60_exceptions.md) -/

/-- The errors STATUS.ERR can record (60_exceptions.md R200). -/
inductive ErrorName where
  | invalidKeyLength
  | noRoundKeys
  | roundOutOfRange
  | illegalCommand
  | busy
deriving DecidableEq, Repr

/-- The error's code in STATUS.ERR (60_exceptions.md R200). -/
def errorCode : ErrorName → BitVec 4
  | .invalidKeyLength => 1
  | .noRoundKeys => 2
  | .roundOutOfRange => 3
  | .illegalCommand => 4
  | .busy => 5

/-- `STATUS.ERR <- code`, unless an error is recorded already: the first error wins (60_exceptions.md R203, R208, R241).
DEDUCED, log 10. -/
def recordError (e : ErrorName) (s : State) : State :=
  { s with status := { s.status with err := if s.status.err = 0 then errorCode e else s.status.err } }

/-- The RoundKeySet wiped: VALID, NK and NR to 0 and all of W to zero (42_key_expansion.md R138). -/
def wipeRoundKeys (s : State) : State :=
  { s with W := Vector.replicate 60 quadZero, status := { s.status with valid := false, nk := 0, nr := 0 } }

/-- `raise <ErrorName>` (60_exceptions.md R203): the code is recorded and nothing else changes, except that
InvalidKeyLength also wipes the RoundKeySet (42_key_expansion.md R138). -/
def raise (e : ErrorName) (s : State) : State :=
  match e with
  | .invalidKeyLength => recordError .invalidKeyLength (wipeRoundKeys s)
  | .noRoundKeys => recordError .noRoundKeys s
  | .roundOutOfRange => recordError .roundOutOfRange s
  | .illegalCommand => recordError .illegalCommand s
  | .busy => recordError .busy s

/-- The "return" from an error: `STATUS.ERR <- 0`, and nothing else (60_exceptions.md R210). -/
def clearError (s : State) : State := { s with status := { s.status with err := 0 } }

/-! ### A command's life (45_control.md R191, R193) -/

/-- `accept(w)`: `PEND <- w`, `STATUS.BUSY <- 1`, nothing else (45_control.md R191). -/
def accept (w : Word) (s : State) : State :=
  { s with pend := some w, status := { s.status with busy := true } }

/-- The end of a completion: PEND empty, BUSY 0 (10_state.md R41, 45_control.md R193). -/
def retire (s : State) : State :=
  { s with pend := none, status := { s.status with busy := false } }

/-- A command run to its end (10_state.md R41). `check` is what the command's own rule checks, `effect` its pseudocode
at completion: with no error, all results are written at once and the command retires; with one, the error is raised in
place of the effect and nothing stays pending. For a pending command the check was made at acceptance and cannot fail
now (45_control.md R191); making it here too keeps the meaning of a command whole (log 9). -/
def runCommand (check : Option ErrorName) (effect : State → State) (s : State) :
    Host.Outcome State Fault Refusal :=
  match check with
  | none => .next (retire (effect s))
  | some e => .next (retire (raise e s))

/-! ### Single registers -/

/-- `S <- T`. -/
def setBlock (T : Block) (s : State) : State := { s with S := T }

/-- `GFRES <- v` (10_state.md R27). -/
def setGfres (v : Byte) (s : State) : State := { s with gfres := v }

/-- `KEYLEN <- v` (20_memory.md R55). -/
def setKeylen (v : Byte) (s : State) : State := { s with keylen := v }

/-- Word `j` of the key file written (20_memory.md R54). -/
def setKeyWord (j : Fin 8) (q : Quad) (s : State) : State := { s with K := s.K.set j.val q j.isLt }

/-- What the bus answers the host. -/
def setReply (r : Reply) (s : State) : State := { s with reply := r }

/-- One busy read drawn: the next one draws another value (20_memory.md R61, log 5). -/
def countDraw (s : State) : State := { s with draws := s.draws + 1 }

/-- The agents' remaining steps. -/
def setInputs (es : List Event) (s : State) : State := { s with inputs := es }

/-- The reset event (70_reset_and_hazards.md R230): every piece of the core's state takes its value after reset, and a
pending command is abandoned. The agents' remaining steps, the host's last answer and the count of draws are not the
core's state and stay (log 16). -/
def platformReset (s : State) : State :=
  { State.reset with inputs := s.inputs, reply := s.reply, draws := s.draws }

end Sys2Proof.Machine
end

