-- ==== Sys2Proof/Machine/Operands.lean ====
section
/-! DEFINITION. The implicit operands of the commands (30_encoding.md R81): the master key, the variant that KEYLEN
selects, and the round keys in W. -/

namespace Sys2Proof.Machine

/-- The legal key lengths: 16, 24 and 32 bytes (42_key_expansion.md R130, R135). -/
def legalKeyLength (len : Byte) : Bool := len = 16 ∨ len = 24 ∨ len = 32

/-- `Nk = len div 4` (42_key_expansion.md R130, R137). -/
def nkOf (len : Byte) : Nat := len.toNat / 4

/-- `Nr = Nk + 6` (42_key_expansion.md R134, R137). -/
def nrOf (nk : Nat) : Nat := nk + 6

/-- Key byte `K[j]` (10_state.md R23): byte `j mod 4` of key word `j div 4` (20_memory.md R54). -/
def keyByte (s : State) (j : Fin 32) : Byte :=
  quadGet (s.K[j.val / 4]'(by omega)) ⟨j.val % 4, Nat.mod_lt _ (by decide)⟩

/-- `K[0..4·nk-1]` as `nk` words, key byte `4i` first in word `i` (42_key_expansion.md R131, R136). -/
def masterKey (s : State) (nk : Nat) : List Quad := s.K.toList.take nk

/-- `W[i]`. Indexes past 59 read zero; they can be asked for only with STATUS.NR = 15, which no run reaches (log 15). -/
def roundKeyWord (s : State) (i : Nat) : Quad := s.W.toList.getD i quadZero

/-- `RK(r)` in the column-major mapping: column `j` is W[4r + j] (10_state.md R26, 43_round_ops.md R150). -/
def roundKey (s : State) (r : Nat) : Block :=
  ⟨roundKeyWord s (4 * r), roundKeyWord s (4 * r + 1), roundKeyWord s (4 * r + 2), roundKeyWord s (4 * r + 3)⟩

/-- `Nr = STATUS.NR` as a number (44_block_transform.md R180). -/
def roundCount (s : State) : Nat := s.status.nr.toNat

end Sys2Proof.Machine
end

