-- ==== Sys2Proof/Machine/Flags.lean ====
section
/-! DEFINITION. The STATUS register (10_state.md R28): its 32-bit view, what KEXP writes to it, and the checks the
commands make of it and of KEYLEN. AESP-CORE has no condition flags (R39). -/

namespace Sys2Proof.Machine

/-- The value a read of STATUS returns (20_memory.md R58):
`{1'b0, 15'b0, NR[3:0], NK[3:0], ERR[3:0], 2'b0, VALID, BUSY}`. -/
def statusWord (t : Status) : Word :=
  (0 : BitVec 1) ++ (0 : BitVec 15) ++ t.nr ++ t.nk ++ t.err ++ (0 : BitVec 2) ++ BitVec.ofBool t.valid ++
    BitVec.ofBool t.busy

/-- A new RoundKeySet in force: W written whole, VALID 1, NK and NR set (42_key_expansion.md R137). -/
def setRoundKeys (w : Vector Quad 60) (nk nr : Nat) (s : State) : State :=
  { s with W := w, status := { s.status with valid := true, nk := BitVec.ofNat 4 nk, nr := BitVec.ofNat 4 nr } }

/-- KEXP's check: KEYLEN ∈ {16, 24, 32}, else InvalidKeyLength (42_key_expansion.md R135). -/
def keyLengthError (s : State) : Option ErrorName :=
  if legalKeyLength s.keylen then none else some .invalidKeyLength

/-- The check of ENC, DEC and ARK: STATUS.VALID = 1, else NoRoundKeys (60_exceptions.md R201). -/
def roundKeysError (s : State) : Option ErrorName :=
  if s.status.valid then none else some .noRoundKeys

/-- ARK's checks, in order: VALID = 1, else NoRoundKeys; then `rnd ≤ STATUS.NR`, else RoundOutOfRange
(43_round_ops.md R158, 60_exceptions.md R202). -/
def roundIndexError (rnd : Nat) (s : State) : Option ErrorName :=
  match roundKeysError s with
  | some e => some e
  | none => if rnd ≤ roundCount s then none else some .roundOutOfRange

end Sys2Proof.Machine
end

