-- ==== Sys2Proof/Machine/Control.lean ====
section
/-! DEFINITION. Command issue (45_control.md): the checks a command write goes through, and the command NOP. -/

namespace Sys2Proof.Machine

/-- NOP (45_control.md R192): nothing is written. -/
def execNop (s : State) : Host.Outcome State Fault Refusal :=
  runCommand none (fun s => s) s

/-- The check of one command at acceptance, after the common ones: the `case d of` of 45_control.md R190. -/
def acceptanceError (i : Instr) (s : State) : Option ErrorName :=
  match i with
  | .kexp => keyLengthError s
  | .enc => roundKeysError s
  | .dec => roundKeysError s
  | .ark rnd => roundIndexError rnd s
  | .nop | .sb | .isb | .sr | .isr | .mc | .imc => none
  | .xtime _ | .gmul _ _ | .sbox _ | .isbox _ => none

/-- `offer(w)`: a host write of `w` to CMD (45_control.md R190, with the priority of 60_exceptions.md R207). -/
def offer (w : Word) (s : State) : State :=
  if s.status.busy then raise .busy s
  else if s.status.err ≠ 0 then s
  else match decode w with
    | .illegal _ => raise .illegalCommand s
    | .command i =>
      match acceptanceError i s with
      | some e => raise e s
      | none => accept w s

end Sys2Proof.Machine
end

