-- ==== Sys2Proof/Machine/Bus.lean ====
section
/-! DEFINITION. The register window (20_memory.md): the register map, the host's reads and writes, and their faults. -/

namespace Sys2Proof.Machine

/-- A register of the window (20_memory.md R52). -/
inductive Reg where
  | cmd
  | status
  | keylen
  | gfres
  | state (c : Fin 4)
  | key (j : Fin 8)
  | rkw (i : Fin 60)
  | reserved
deriving DecidableEq, Repr

/-- The register at an offset of the form 4n (20_memory.md R52). -/
def regAt (off : BitVec 12) : Reg :=
  let o := off.toNat
  if o = 0x000 then .cmd
  else if o = 0x004 then .status
  else if o = 0x008 then .keylen
  else if o = 0x00C then .gfres
  else if h : 0x010 ≤ o ∧ o < 0x020 then .state ⟨(o - 0x010) / 4, by omega⟩
  else if h : 0x020 ≤ o ∧ o < 0x040 then .key ⟨(o - 0x020) / 4, by omega⟩
  else if h : 0x100 ≤ o ∧ o < 0x1F0 then .rkw ⟨(o - 0x100) / 4, by omega⟩
  else .reserved

/-- The exact value of a register (20_memory.md R52 to R59, 10_state.md R34). -/
def readReg (s : State) : Reg → Word
  | .cmd => 0
  | .status => statusWord s.status
  | .keylen => s.keylen.setWidth 32
  | .gfres => s.gfres.setWidth 32
  | .state c => quadToWord (blockColumn s.S c)
  | .key j => quadToWord s.K[j]
  | .rkw i => quadToWord s.W[i]
  | .reserved => 0

/-- The registers whose reads are draws while BUSY = 1 (20_memory.md R61). -/
def drawnWhileBusy : Reg → Bool
  | .state _ | .rkw _ | .gfres => true
  | .cmd | .status | .keylen | .key _ | .reserved => false

/-- `HostRead` of a register. It changes nothing of the core (20_memory.md R63); while BUSY = 1 the registers of R61
answer with a fresh draw (log 5). -/
def hostRead (r : Reg) (s : State) : State :=
  if s.status.busy ∧ drawnWhileBusy r then countDraw (setReply (.data (Config.busyRead s.draws)) s)
  else setReply (.data (readReg s r)) s

/-- A write to KEYLEN, STATEc or KEYj: performed when BUSY = 0, whatever ERR holds (60_exceptions.md R204); dropped, with
the error Busy, when BUSY = 1 (70_reset_and_hazards.md R241). -/
def writeUnlessBusy (write : State → State) (s : State) : State :=
  if s.status.busy then raise .busy s else write s

/-- What `HostWrite` of `v` does to the core (20_memory.md R52 to R59). -/
def writeReg (r : Reg) (v : Word) (s : State) : State :=
  match r with
  | .cmd => offer v s
  | .status => if v.getLsbD 31 then clearError s else s
  | .keylen => writeUnlessBusy (setKeylen (v.extractLsb' 0 8)) s
  | .state c => writeUnlessBusy (fun s => setBlock (blockSetColumn s.S c (quadOfWord v)) s) s
  | .key j => writeUnlessBusy (setKeyWord j (quadOfWord v)) s
  | .gfres => s
  | .rkw _ => s
  | .reserved => s

/-- `HostWrite` of a register: the write, and the bus's answer to the host. -/
def hostWrite (r : Reg) (v : Word) (s : State) : State := setReply .done (writeReg r v s)

/-- The accesses that are served: 32 bits wide, at an offset with `off mod 4 = 0` (20_memory.md R51). -/
def served (width : Width) (off : BitVec 12) : Bool := width = .w32 ∧ off.toNat % 4 = 0

/-- One access of the host. One that is not an aligned 32-bit access is refused: the host faults with `BusError(off)` and
no state of the core changes (20_memory.md R51, log 4). -/
def hostStep (a : Access) (s : State) : Host.Outcome State Fault Refusal :=
  match a with
  | .read width off => if served width off then .next (hostRead (regAt off) s) else .fault (.busError off)
  | .write width off v => if served width off then .next (hostWrite (regAt off) v s) else .fault (.busError off)

/-! ### Host addresses (20_memory.md R50, 00_scope.md R7, log 7) -/

/-- `BASE`: the host address of register offset 0x000, 4096-byte aligned. -/
def baseAddress : Nat := 4096 * Config.basePage

/-- The host address of a register offset: `BASE + off`. -/
def hostAddress (off : BitVec 12) : Nat := baseAddress + off.toNat

/-- The offset a host address names, if it lies in the window. -/
def offsetOf (addr : Nat) : Option (BitVec 12) :=
  if baseAddress ≤ addr ∧ addr < baseAddress + 4096 then some (BitVec.ofNat 12 (addr - baseAddress)) else none

end Sys2Proof.Machine
end

