-- ==== Sys2Proof/Machine/Galois.lean ====
section
/-! DEFINITION. The Galois field operators (40_galois_field.md): xtime, the general multiply, the constant multiples of
the datapath, and the commands XTIME and GMUL. -/

namespace Sys2Proof.Machine

/-- `xtime(b)` (40_galois_field.md R101): multiply by 2, reduced by 0x11B. -/
def xtime (b : Byte) : Byte :=
  let t : BitVec 9 := b.setWidth 9 <<< 1
  if b.getLsbD 7 then (t ^^^ 0x11B).extractLsb' 0 8 else t.extractLsb' 0 8

/-- The loop of `gmul` (40_galois_field.md R102): `n` bits of `b` are left, from bit `i` up; `p` is `xtime^i(a)` and `r`
the sum so far. -/
def gmulLoop (b : Byte) : (n i : Nat) → (p r : Byte) → Byte
  | 0, _, _, r => r
  | n + 1, i, p, r => gmulLoop b n (i + 1) (xtime p) (if b.getLsbD i then r ^^^ p else r)

/-- `gmul(a, b)`: the product in GF(2^8) modulo 0x11B, by shift and add (40_galois_field.md R102). -/
def gmul (a b : Byte) : Byte := gmulLoop b 8 0 a 0

/-! ### The constant multiples (R103), as compositions of xtime and XOR -/

/-- `2·b = x1`. -/
def times2 (b : Byte) : Byte := xtime b

/-- `3·b = x1 ^ b`. -/
def times3 (b : Byte) : Byte := xtime b ^^^ b

/-- `9·b = x3 ^ b`. -/
def times9 (b : Byte) : Byte := xtime (xtime (xtime b)) ^^^ b

/-- `11·b = x3 ^ x1 ^ b`. -/
def times11 (b : Byte) : Byte := xtime (xtime (xtime b)) ^^^ xtime b ^^^ b

/-- `13·b = x3 ^ x2 ^ b`. -/
def times13 (b : Byte) : Byte := xtime (xtime (xtime b)) ^^^ xtime (xtime b) ^^^ b

/-- `14·b = x3 ^ x2 ^ x1`. -/
def times14 (b : Byte) : Byte := xtime (xtime (xtime b)) ^^^ xtime (xtime b) ^^^ xtime b

/-! ### The commands -/

/-- XTIME a (40_galois_field.md R108): `GFRES <- xtime(a)`. -/
def execXtime (a : Byte) (s : State) : Host.Outcome State Fault Refusal :=
  runCommand none (setGfres (xtime a)) s

/-- GMUL a, b (40_galois_field.md R109): `GFRES <- gmul(a, b)`. -/
def execGmul (a b : Byte) (s : State) : Host.Outcome State Fault Refusal :=
  runCommand none (setGfres (gmul a b)) s

end Sys2Proof.Machine
end

