-- ==== Sys2Proof/Machine/RoundOps.lean ====
section
/-! DEFINITION. The seven state operations as functions of the whole state (43_round_ops.md R150 to R156), and the
commands ARK, SB, ISB, SR, ISR, MC and IMC. -/

namespace Sys2Proof.Machine

/-- `AddRoundKey(T, k)[r][c] = T[r][c] ^ k[4c + r]` (43_round_ops.md R150), `k` in the column-major mapping. -/
def addRoundKey (T k : Block) : Block := blockOf fun r c => blockGet T r c ^^^ blockGet k r c

/-- `SubBytes(T)[r][c] = SBOX[T[r][c]]` (43_round_ops.md R151). -/
def subBytes (T : Block) : Block := blockOf fun r c => sbox (blockGet T r c)

/-- `InvSubBytes(T)[r][c] = ISBOX[T[r][c]]` (43_round_ops.md R152). -/
def invSubBytes (T : Block) : Block := blockOf fun r c => isbox (blockGet T r c)

/-- `ShiftRows(T)[r][c] = T[r][(c + r) mod 4]` (43_round_ops.md R153). -/
def shiftRows (T : Block) : Block :=
  blockOf fun r c => blockGet T r ⟨(c.val + r.val) % 4, Nat.mod_lt _ (by decide)⟩

/-- `InvShiftRows(T)[r][c] = T[r][(c + 4 - r) mod 4]` (43_round_ops.md R154). -/
def invShiftRows (T : Block) : Block :=
  blockOf fun r c => blockGet T r ⟨(c.val + 4 - r.val) % 4, Nat.mod_lt _ (by decide)⟩

/-- One column of MixColumns (43_round_ops.md R155). -/
def mixColumn (a : Quad) : Quad where
  b0 := times2 a.b0 ^^^ times3 a.b1 ^^^ a.b2 ^^^ a.b3
  b1 := a.b0 ^^^ times2 a.b1 ^^^ times3 a.b2 ^^^ a.b3
  b2 := a.b0 ^^^ a.b1 ^^^ times2 a.b2 ^^^ times3 a.b3
  b3 := times3 a.b0 ^^^ a.b1 ^^^ a.b2 ^^^ times2 a.b3

/-- MixColumns (43_round_ops.md R155). -/
def mixColumns (T : Block) : Block := blockMapColumns mixColumn T

/-- One column of InvMixColumns (43_round_ops.md R156). -/
def invMixColumn (a : Quad) : Quad where
  b0 := times14 a.b0 ^^^ times11 a.b1 ^^^ times13 a.b2 ^^^ times9 a.b3
  b1 := times9 a.b0 ^^^ times14 a.b1 ^^^ times11 a.b2 ^^^ times13 a.b3
  b2 := times13 a.b0 ^^^ times9 a.b1 ^^^ times14 a.b2 ^^^ times11 a.b3
  b3 := times11 a.b0 ^^^ times13 a.b1 ^^^ times9 a.b2 ^^^ times14 a.b3

/-- InvMixColumns (43_round_ops.md R156). -/
def invMixColumns (T : Block) : Block := blockMapColumns invMixColumn T

/-! ### The commands -/

/-- ARK rnd (43_round_ops.md R158): `S <- AddRoundKey(S, RK(rnd))`. -/
def execArk (rnd : Nat) (s : State) : Host.Outcome State Fault Refusal :=
  runCommand (roundIndexError rnd s) (fun s => setBlock (addRoundKey s.S (roundKey s rnd)) s) s

/-- SB (43_round_ops.md R159): `S <- SubBytes(S)`. -/
def execSb (s : State) : Host.Outcome State Fault Refusal :=
  runCommand none (fun s => setBlock (subBytes s.S) s) s

/-- ISB (43_round_ops.md R160): `S <- InvSubBytes(S)`. -/
def execIsb (s : State) : Host.Outcome State Fault Refusal :=
  runCommand none (fun s => setBlock (invSubBytes s.S) s) s

/-- SR (43_round_ops.md R161): `S <- ShiftRows(S)`. -/
def execSr (s : State) : Host.Outcome State Fault Refusal :=
  runCommand none (fun s => setBlock (shiftRows s.S) s) s

/-- ISR (43_round_ops.md R162): `S <- InvShiftRows(S)`. -/
def execIsr (s : State) : Host.Outcome State Fault Refusal :=
  runCommand none (fun s => setBlock (invShiftRows s.S) s) s

/-- MC (43_round_ops.md R163): `S <- MixColumns(S)`. -/
def execMc (s : State) : Host.Outcome State Fault Refusal :=
  runCommand none (fun s => setBlock (mixColumns s.S) s) s

/-- IMC (43_round_ops.md R164): `S <- InvMixColumns(S)`. -/
def execImc (s : State) : Host.Outcome State Fault Refusal :=
  runCommand none (fun s => setBlock (invMixColumns s.S) s) s

end Sys2Proof.Machine
end

