-- ==== Sys2Proof/Machine/BlockTransform.lean ====
section
/-! DEFINITION. The block transform (44_block_transform.md) and the commands ENC and DEC. -/

namespace Sys2Proof.Machine

/-- One middle round of ENC with its round key (44_block_transform.md R180). -/
def encRound (k T : Block) : Block := addRoundKey (mixColumns (shiftRows (subBytes T))) k

/-- `n` middle rounds of ENC, from round `r` up (44_block_transform.md R180). -/
def encRounds (rk : Nat → Block) : (n r : Nat) → Block → Block
  | 0, _, T => T
  | n + 1, r, T => encRounds rk n (r + 1) (encRound (rk r) T)

/-- The cipher of 44_block_transform.md R180 with round keys `rk 0 .. rk nr`. -/
def encryptBlock (rk : Nat → Block) (nr : Nat) (T : Block) : Block :=
  addRoundKey (shiftRows (subBytes (encRounds rk (nr - 1) 1 (addRoundKey T (rk 0))))) (rk nr)

/-- One middle round of DEC with its round key: AddRoundKey comes before InvMixColumns (44_block_transform.md R182). -/
def decRound (k T : Block) : Block := invMixColumns (addRoundKey (invSubBytes (invShiftRows T)) k)

/-- The middle rounds `n, n-1, .., 1` of DEC (44_block_transform.md R182). -/
def decRounds (rk : Nat → Block) : (n : Nat) → Block → Block
  | 0, T => T
  | n + 1, T => decRounds rk n (decRound (rk (n + 1)) T)

/-- The inverse cipher of 44_block_transform.md R182. -/
def decryptBlock (rk : Nat → Block) (nr : Nat) (T : Block) : Block :=
  addRoundKey (invSubBytes (invShiftRows (decRounds rk (nr - 1) (addRoundKey T (rk nr))))) (rk 0)

/-- ENC (44_block_transform.md R180). -/
def execEnc (s : State) : Host.Outcome State Fault Refusal :=
  runCommand (roundKeysError s) (fun s => setBlock (encryptBlock (roundKey s) (roundCount s) s.S) s) s

/-- DEC (44_block_transform.md R182). -/
def execDec (s : State) : Host.Outcome State Fault Refusal :=
  runCommand (roundKeysError s) (fun s => setBlock (decryptBlock (roundKey s) (roundCount s) s.S) s) s

end Sys2Proof.Machine
end

