-- ==== Sys2Proof/Machine/KeyExpansion.lean ====
section
/-! DEFINITION. The key expansion engine (42_key_expansion.md) and the command KEXP. -/

namespace Sys2Proof.Machine

/-- `RotWord(w) = (w.1, w.2, w.3, w.0)` (42_key_expansion.md R132). -/
def rotWord (w : Quad) : Quad := ⟨w.b1, w.b2, w.b3, w.b0⟩

/-- `SubWord(w)`: the forward S-box on each byte (42_key_expansion.md R132). -/
def subWord (w : Quad) : Quad := quadMap sbox w

/-- The round-constant table RCON[0..9] (42_key_expansion.md R133). -/
def rconTable : List Byte := [0x01, 0x02, 0x04, 0x08, 0x10, 0x20, 0x40, 0x80, 0x1B, 0x36]

/-- `Rcon(j) = (RCON[j], 0, 0, 0)` (42_key_expansion.md R133). No index above 9 is ever asked for (R139). -/
def rcon (j : Nat) : Quad := ⟨rconTable.getD j 0, 0, 0, 0⟩

/-- `temp` of 42_key_expansion.md R134 at index `i`, from `w[i-1]`. -/
def scheduleTemp (nk i : Nat) (prev : Quad) : Quad :=
  if i % nk = 0 then quadXor (subWord (rotWord prev)) (rcon (i / nk - 1))
  else if nk = 8 ∧ i % nk = 4 then subWord prev
  else prev

/-- The loop of 42_key_expansion.md R134: `n` more words after `w[0..i-1]`, each `w[i] <- w[i-Nk] ^ temp`. -/
def expandLoop (nk : Nat) : (n i : Nat) → List Quad → List Quad
  | 0, _, w => w
  | n + 1, i, w =>
    expandLoop nk n (i + 1)
      (w ++ [quadXor (w.getD (i - nk) quadZero) (scheduleTemp nk i (w.getD (i - 1) quadZero))])

/-- `expand(k, Nk)`: the `4(Nr+1)` words of the schedule, from the key's `Nk` words (42_key_expansion.md R131, R134). -/
def expand (key : List Quad) (nk : Nat) : List Quad := expandLoop nk (4 * (nrOf nk + 1) - nk) nk key

/-- `W[i] <- (i < 4(Nr+1)) ? w[i] : 0` for every i in 0..59 (42_key_expansion.md R137). -/
def roundKeyFile (w : List Quad) : Vector Quad 60 := Vector.ofFn fun i => w.getD i.val quadZero

/-- The pseudocode of KEXP at completion (42_key_expansion.md R137). -/
def expandKey (s : State) : State :=
  let nk := nkOf s.keylen
  setRoundKeys (roundKeyFile (expand (masterKey s nk) nk)) nk (nrOf nk) s

/-- KEXP (42_key_expansion.md R137, R138). -/
def execKexp (s : State) : Host.Outcome State Fault Refusal :=
  runCommand (keyLengthError s) expandKey s

end Sys2Proof.Machine
end

