-- ==== Sys2Proof/Machine/Completion.lean ====
section
/-! DEFINITION. The core's step (45_control.md R193) and the choice of the agent that moves (10_state.md R20). -/

namespace Sys2Proof.Machine

/-- The core's turn. While PEND holds `w` its one step runs `decode(w)`'s meaning and retires the command (45_control.md
R193, 10_state.md R41). With PEND empty there is no core step, and the turn passes with no effect (R20, log 3). PEND never
holds an illegal word; if it did, the word would raise IllegalCommand as it does at acceptance (log 9). -/
def coreStep (s : State) : Host.Outcome State Fault Refusal :=
  match s.pend with
  | none => .next s
  | some w =>
    match decode w with
    | .command i => exec i s
    | .illegal _ => runCommand (some .illegalCommand) (fun s => s) s

/-- One step of the agent whose turn it is (10_state.md R20). With no input left the core completes what is pending
(weak fairness, 45_control.md R193, log 2), and otherwise the machine is idle. -/
def agentStep (s : State) : Host.Outcome State Fault Refusal :=
  match s.inputs with
  | [] => coreStep s
  | .host a :: rest => hostStep a (setInputs rest s)
  | .core :: rest => coreStep (setInputs rest s)
  | .reset :: rest => .next (platformReset (setInputs rest s))

/-- `s` with the command word `w` accepted and the core next to move (log 12). The bits of `w` from `nbits` up are 0. -/
def placeCommand (s : State) (nbits w : Nat) : State :=
  setInputs (.core :: s.inputs) (accept (BitVec.ofNat 32 (w % 2 ^ nbits)) s)

end Sys2Proof.Machine
end

