-- ==== Sys2Proof/Machine/Step.lean ====
section
/-! DEFINITION. The step of the machine, and the place a command is put so that the next step runs it. -/

namespace Sys2Proof.Machine

/-- One step of the machine: one host access, one core completion, or one reset (10_state.md R20). -/
def step (s : State) : Host.Outcome State Fault Refusal := agentStep s

/-- `s` with a command word placed where the core's next step finds it: PEND (10_state.md R35, log 12). -/
def State.withFetchWord (s : State) (nbits w : Nat) : State := placeCommand s nbits w

end Sys2Proof.Machine
end

