-- ==== Sys2Proof/Machine/Assembly.lean ====
section
/-! DEFINITION. The command syntax (30_encoding.md R86): one line of assembly to a command, or none where the line spells
no command. Lines are lists of characters. Where blanks may stand, and that a mnemonic is written in capitals, is log 19. -/

namespace Sys2Proof.Machine

/-- A space or a tab. -/
def isBlank (c : Char) : Bool := c = ' ' ∨ c = '\t'

/-- The line without its `;` comment and without blanks at its ends. -/
def trimBlanks (l : List Char) : List Char := ((l.dropWhile isBlank).reverse.dropWhile isBlank).reverse

/-- The part of a line before its `;` comment (30_encoding.md R86). -/
def withoutComment (l : List Char) : List Char := trimBlanks (l.takeWhile (· ≠ ';'))

/-- The operands of a line: its parts between commas. -/
def splitCommas : List Char → List (List Char)
  | [] => [[]]
  | c :: cs =>
    if c = ',' then [] :: splitCommas cs
    else match splitCommas cs with
      | [] => [[c]]
      | part :: parts => (c :: part) :: parts

/-- A decimal digit's value. -/
def decDigit (c : Char) : Option Nat := if '0' ≤ c ∧ c ≤ '9' then some (c.toNat - '0'.toNat) else none

/-- A hex digit's value. -/
def hexDigit (c : Char) : Option Nat :=
  if '0' ≤ c ∧ c ≤ '9' then some (c.toNat - '0'.toNat)
  else if 'a' ≤ c ∧ c ≤ 'f' then some (c.toNat - 'a'.toNat + 10)
  else if 'A' ≤ c ∧ c ≤ 'F' then some (c.toNat - 'A'.toNat + 10)
  else none

/-- Decimal digits read on from the value `n`. -/
def readDecimal (n : Nat) : List Char → Option Nat
  | [] => some n
  | c :: cs => match decDigit c with
    | some d => readDecimal (10 * n + d) cs
    | none => none

/-- A decimal number of at least one digit. -/
def parseDecimal : List Char → Option Nat
  | [] => none
  | c :: cs => readDecimal 0 (c :: cs)

/-- `r`: a decimal number 0..15 (30_encoding.md R86). -/
def parseRound (l : List Char) : Option Nat :=
  match parseDecimal l with
  | some n => if n ≤ 15 then some n else none
  | none => none

/-- `a`, `b`: `0x` and two hex digits, or decimal 0..255 (30_encoding.md R86). -/
def parseByte (l : List Char) : Option Byte :=
  match l with
  | ['0', 'x', h, d] => match hexDigit h, hexDigit d with
    | some x, some y => some (BitVec.ofNat 8 (16 * x + y))
    | _, _ => none
  | _ => match parseDecimal l with
    | some n => if n ≤ 255 then some (BitVec.ofNat 8 n) else none
    | none => none

/-- A mnemonic that takes no operand (30_encoding.md R86). -/
def plainCommand (m : List Char) : Option Instr :=
  if m = ['N', 'O', 'P'] then some .nop
  else if m = ['K', 'E', 'X', 'P'] then some .kexp
  else if m = ['E', 'N', 'C'] then some .enc
  else if m = ['D', 'E', 'C'] then some .dec
  else if m = ['S', 'B'] then some .sb
  else if m = ['I', 'S', 'B'] then some .isb
  else if m = ['S', 'R'] then some .sr
  else if m = ['I', 'S', 'R'] then some .isr
  else if m = ['M', 'C'] then some .mc
  else if m = ['I', 'M', 'C'] then some .imc
  else none

/-- A mnemonic that takes one operand (30_encoding.md R86). -/
def unaryCommand (m x : List Char) : Option Instr :=
  if m = ['A', 'R', 'K'] then (parseRound x).map .ark
  else if m = ['X', 'T', 'I', 'M', 'E'] then (parseByte x).map .xtime
  else if m = ['S', 'B', 'O', 'X'] then (parseByte x).map .sbox
  else if m = ['I', 'S', 'B', 'O', 'X'] then (parseByte x).map .isbox
  else none

/-- GMUL, the mnemonic that takes two operands (30_encoding.md R86). -/
def binaryCommand (m x y : List Char) : Option Instr :=
  if m = ['G', 'M', 'U', 'L'] then
    match parseByte x, parseByte y with
    | some a, some b => some (.gmul a b)
    | _, _ => none
  else none

/-- One line of command syntax (30_encoding.md R86). An operand out of range, a missing operand, or one given to a
mnemonic that takes none, spells no command. -/
def assembleLine (line : List Char) : Option Instr :=
  let l := withoutComment line
  let mnemonic := l.takeWhile (fun c => !isBlank c)
  let rest := trimBlanks (l.dropWhile (fun c => !isBlank c))
  if rest = [] then plainCommand mnemonic
  else match (splitCommas rest).map trimBlanks with
    | [x] => unaryCommand mnemonic x
    | [x, y] => binaryCommand mnemonic x y
    | _ => none

end Sys2Proof.Machine
end

