-- ==== Sys2Proof/Machine/HostProgram.lean ====
section
/-! DEFINITION. Host programs (30_encoding.md R87, R88): the three host primitives, the pseudo-instructions and their
expansions, and a host that runs such a program against one core. The host's own ISA is outside the spec (R87); this file
gives the notation its meaning and nothing in `step` depends on it. -/

namespace Sys2Proof.Machine

/-- A label: one the programmer wrote, or the fresh label of a WAIT (30_encoding.md R88). -/
inductive Label where
  | named (name : String)
  | fresh (n : Nat)
deriving DecidableEq, Repr

/-- A host variable: a plain one (`t`, no index), or member `c` of the group that a pseudo-instruction reads (`y_c`,
30_encoding.md R88). A group's members are apart from every plain variable (DESIGN CHOICE, log 18). -/
structure HostVar where
  name  : String
  index : Option Nat
deriving DecidableEq, Repr

/-- A host primitive (30_encoding.md R87). -/
inductive HostOp where
  | wr (off : BitVec 12) (v : Word)
  | rd (off : BitVec 12) (t : HostVar)
  | bnz (t : HostVar) (mask : Word) (target : Label)
deriving DecidableEq, Repr

/-- A line of a host program: a label, or an operation (30_encoding.md R87). -/
inductive HostLine where
  | label (l : Label)
  | op (o : HostOp)
deriving DecidableEq, Repr

/-- A pseudo-instruction, or a line that is none (30_encoding.md R88). -/
inductive Pseudo where
  | line (l : HostLine)
  | cmd (i : Instr)
  | wait
  | doCmd (i : Instr)
  | clrerr
  | ldkey (k : List Byte)
  | ldblk (x : List Byte)
  | rdblk (y : String)
  | rdrk (r : Nat) (y : String)
  | round (r : Nat)
  | fround (r : Nat)
  | iround (r : Nat)
  | ifround
deriving DecidableEq, Repr

/-- `CMD X`: `WR 0x000, enc(X)`. -/
def cmdLines (i : Instr) : List HostLine := [.op (.wr 0x000 (encode i))]

/-- The variable that every WAIT assigns. R88 makes only the label fresh and does not say whose variable `t` is: the model
takes the one plain variable named t, which a program's own `t` is too (DESIGN CHOICE, log 18). The programs of
95_test_vectors.md use `t` in every WAIT. -/
def waitVar : HostVar := ⟨"t", none⟩

/-- `WAIT`: `L: RD 0x004 -> t` then `BNZ t, 0x00000001, L`, with the fresh label `n`; `t` is `waitVar` (log 18). -/
def waitLines (n : Nat) : List HostLine :=
  [.label (.fresh n), .op (.rd 0x004 waitVar), .op (.bnz waitVar 0x00000001 (.fresh n))]

/-- `DO X`: `CMD X` then `WAIT`. -/
def doLines (n : Nat) (i : Instr) : List HostLine := cmdLines i ++ waitLines n

/-- Several `DO`s in a row, with fresh labels from `n` up. -/
def doAll (n : Nat) : List Instr → List HostLine
  | [] => []
  | i :: is => doLines n i ++ doAll (n + 1) is

/-- The four bytes `x[4j] .. x[4j+3]`; a byte the list does not give is 0x00. -/
def bytesQuad (x : List Byte) (j : Nat) : Quad :=
  quadOf fun b => x.getD (4 * j + b.val) 0

/-- `ROUND r`, `FROUND r`, `IROUND r`, `IFROUND` as commands (30_encoding.md R88). -/
def roundCommands (r : Nat) : List Instr := [.sb, .sr, .mc, .ark r]
def froundCommands (r : Nat) : List Instr := [.sb, .sr, .ark r]
def iroundCommands (r : Nat) : List Instr := [.isr, .isb, .ark r, .imc]
def ifroundCommands : List Instr := [.isr, .isb, .ark 0]

/-- The expansion of one pseudo-instruction; `n` numbers its first fresh label (30_encoding.md R88). R88 gives the operands'
ranges (LDKEY of 0..32 bytes, LDBLK of 16) and does not say what an operand outside them does; the model expands it by the
same formulas (DESIGN CHOICE, log 18): LDKEY of more bytes goes on past KEY7, LDBLK takes a missing byte as 0x00 and drops
any after the sixteenth, RDRK of a round above 14 reads past RKW59, offsets are taken mod 4096, and a round index keeps its
four low bits (log 14). -/
def expandPseudo (n : Nat) : Pseudo → List HostLine
  | .line l => [l]
  | .cmd i => cmdLines i
  | .wait => waitLines n
  | .doCmd i => doLines n i
  | .clrerr => [.op (.wr 0x004 0x80000000)]
  | .ldkey k =>
    .op (.wr 0x008 (BitVec.ofNat 32 k.length)) ::
      (List.range ((k.length + 3) / 4)).map fun j =>
        .op (.wr (BitVec.ofNat 12 (0x020 + 4 * j)) (quadToWord (bytesQuad k j)))
  | .ldblk x =>
    (List.range 4).map fun c => .op (.wr (BitVec.ofNat 12 (0x010 + 4 * c)) (quadToWord (bytesQuad x c)))
  | .rdblk y => (List.range 4).map fun c => .op (.rd (BitVec.ofNat 12 (0x010 + 4 * c)) ⟨y, some c⟩)
  | .rdrk r y => (List.range 4).map fun c => .op (.rd (BitVec.ofNat 12 (0x100 + 16 * r + 4 * c)) ⟨y, some c⟩)
  | .round r => doAll n (roundCommands r)
  | .fround r => doAll n (froundCommands r)
  | .iround r => doAll n (iroundCommands r)
  | .ifround => doAll n ifroundCommands

/-- A program's expansion. No pseudo-instruction takes more than four fresh labels. -/
def expandProgram (n : Nat) : List Pseudo → List HostLine
  | [] => []
  | p :: ps => expandPseudo n p ++ expandProgram (n + 4) ps

/-- The commands that ENC stands for (44_block_transform.md R184): `ARK 0`, `ROUND 1` .. `ROUND nr-1`, `FROUND nr`. -/
def encCommands (nr : Nat) : List Instr :=
  .ark 0 :: ((List.range' 1 (nr - 1)).flatMap roundCommands ++ froundCommands nr)

/-- The commands that DEC stands for (44_block_transform.md R184): `ARK nr`, `IROUND nr-1` .. `IROUND 1`, `IFROUND`. -/
def decCommands (nr : Nat) : List Instr :=
  .ark nr :: ((List.range' 1 (nr - 1)).reverse.flatMap iroundCommands ++ ifroundCommands)

/-- A host with its program, beside the core it drives. -/
structure HostSystem where
  core : State
  prog : List HostLine
  /-- the index of the line the host does next. -/
  pc   : Nat
  /-- the host's variables, the latest value first. -/
  vars : List (HostVar × Word)
deriving DecidableEq, Repr

/-- A host variable's value; one never assigned reads 0 (the host's own matter, log 18). -/
def hostVar (h : HostSystem) (t : HostVar) : Word :=
  match h.vars.find? (fun p => p.1 = t) with
  | some p => p.2
  | none => 0

/-- The index of the line that is the label: the first one where several lines are, and the program's end where none is.
30_encoding.md R87 is silent on both (DESIGN CHOICE, log 18). -/
def labelIndex (prog : List HostLine) (l : Label) : Nat := prog.findIdx (fun x => x = .label l)

/-- The host's variable `t` takes the value the bus answered. -/
def assignReply (t : HostVar) (core : State) (vars : List (HostVar × Word)) : List (HostVar × Word) :=
  match core.reply with
  | .data v => (t, v) :: vars
  | .none | .done => vars

/-- One line of the host's program (30_encoding.md R87). At the program's end the host does nothing. -/
def hostLineStep (h : HostSystem) : Host.Outcome HostSystem Fault Refusal :=
  match h.prog[h.pc]? with
  | none => .next h
  | some (.label _) => .next { h with pc := h.pc + 1 }
  | some (.op (.wr off v)) =>
    match hostStep (.write .w32 off v) h.core with
    | .next s => .next { h with core := s, pc := h.pc + 1 }
    | .fault e => .fault e
    | .refused e => .refused e
  | some (.op (.rd off t)) =>
    match hostStep (.read .w32 off) h.core with
    | .next s => .next { h with core := s, pc := h.pc + 1, vars := assignReply t s h.vars }
    | .fault e => .fault e
    | .refused e => .refused e
  | some (.op (.bnz t mask target)) =>
    .next { h with pc := if hostVar h t &&& mask = 0 then h.pc + 1 else labelIndex h.prog target }

/-- The core's turn beside a host that runs a program. -/
def systemCoreStep (h : HostSystem) : Host.Outcome HostSystem Fault Refusal :=
  match coreStep h.core with
  | .next s => .next { h with core := s }
  | .fault e => .fault e
  | .refused e => .refused e

end Sys2Proof.Machine
end

