-- ==== Sys2Proof/Safety.lean ====
section
/-! DEFINITION. The terms claims are made in: when the core is ready for a command, the invariant every step keeps, and a
run of commands one after another. -/

namespace Sys2Proof.Machine

/-- The next state of an outcome, if it is one. -/
def nextOf (o : Host.Outcome State Fault Refusal) : Option State :=
  match o with
  | .next t => some t
  | .fault _ => none
  | .refused _ => none

/-- No command is pending and no error is recorded: a command write is decoded and checked (45_control.md R190). -/
abbrev ready (s : State) : Prop := s.status.busy = false ∧ s.status.err = 0 ∧ s.pend = none

/-! ### The invariant -/

/-- STATUS.BUSY = 1 exactly when PEND is non-empty (10_state.md R35). -/
abbrev busyIsPending (s : State) : Prop := s.status.busy = s.pend.isSome

/-- Error codes 6..15 are never produced (60_exceptions.md R200). -/
abbrev errorIsDefined (s : State) : Prop := s.status.err.toNat ≤ 5

/-- No RoundKeySet: VALID, NK, NR and every word of W are 0 (the first case of 10_state.md R33). -/
def noKeySet (s : State) : Prop :=
  s.status.valid = false ∧ s.status.nk = 0 ∧ s.status.nr = 0 ∧ ∀ i : Fin 60, s.W[i] = quadZero

/-- A whole RoundKeySet: W is the expansion of some key of `nk` words, zero past its end (the second case of
10_state.md R33). -/
def wholeKeySet (s : State) : Prop :=
  s.status.valid = true ∧
  ∃ (nk : Nat) (key : List Quad), (nk = 4 ∨ nk = 6 ∨ nk = 8) ∧ key.length = nk ∧
    s.status.nk.toNat = nk ∧ s.status.nr.toNat = nk + 6 ∧
    ∀ i : Fin 60, s.W[i] = if i.val < 4 * (nk + 7) then (expand key nk).getD i.val quadZero else quadZero

/-- A pending word is a legal command whose checks hold (45_control.md R191). -/
def pendingIsLegal (s : State) : Prop :=
  ∀ w, s.pend = some w → ∃ i, decode w = .command i ∧ acceptanceError i s = none

/-- What every reachable state satisfies (10_state.md R33, R35; 60_exceptions.md R200; 45_control.md R191). -/
structure Consistent (s : State) : Prop where
  busyPend : busyIsPending s
  errCode  : errorIsDefined s
  keySet   : noKeySet s ∨ wholeKeySet s
  pending  : pendingIsLegal s

/-! ### Runs -/

/-- Commands run to their end one after another, stopping where one does not answer a next state. -/
def execAll : List Instr → State → Host.Outcome State Fault Refusal
  | [], s => .next s
  | i :: is, s =>
    match exec i s with
    | .next t => execAll is t
    | .fault e => .fault e
    | .refused e => .refused e

/-- The host's program run on for `n` lines, the core not moving between them (30_encoding.md R87). -/
def hostLines : Nat → HostSystem → Host.Outcome HostSystem Fault Refusal
  | 0, h => .next h
  | n + 1, h =>
    match hostLineStep h with
    | .next g => hostLines n g
    | .fault e => .fault e
    | .refused e => .refused e

/-- Host accesses made one after another. -/
def hostAll : List Access → State → Host.Outcome State Fault Refusal
  | [], s => .next s
  | a :: as, s =>
    match hostStep a s with
    | .next t => hostAll as t
    | .fault e => .fault e
    | .refused e => .refused e

/-- The event is a host access that the window serves (20_memory.md R51), or the core's turn: no reset, no bus error. -/
def servedEvent : Event → Bool
  | .host (.read width off) => served width off
  | .host (.write width off _) => served width off
  | .core => true
  | .reset => false

/-! ### The common part of a command's rule -/

/-- Offered to a ready core, the command's word becomes the pending command, and nothing else changes (45_control.md R191). -/
def acceptedWhenReady (i : Instr) : Prop :=
  ∀ s, ready s →
    offer (encode i) s = { s with pend := some (encode i), status := { s.status with busy := true } }

/-- A word with this opcode and a non-zero field that the command does not use (`rsv` is never used) raises IllegalCommand
(code 4) when a ready core is offered it, with no other effect (30_encoding.md R84). -/
def illegalWhenUnusedSet (op : Byte) (usesRnd usesA usesB : Bool) : Prop :=
  ∀ w s, ready s → opField w = op →
    (rsvField w ≠ 0 ∨ (usesRnd = false ∧ rndField w ≠ 0) ∨ (usesA = false ∧ aField w ≠ 0) ∨
      (usesB = false ∧ bField w ≠ 0)) →
    offer w s = { s with status := { s.status with err := 4 } }

/-- The core moves next: it is its turn, or no input is left. -/
def coreMovesNext (s : State) : Prop := s.inputs = [] ∨ ∃ rest, s.inputs = .core :: rest

/-- The core moves next and the pending command is `i`. -/
def completesNext (s : State) (i : Instr) : Prop :=
  coreMovesNext s ∧ ∃ w, s.pend = some w ∧ decode w = .command i

/-- The host's next step writes `v` at `off`. -/
def hostWritesNext (s : State) (off : BitVec 12) (v : Word) : Prop :=
  ∃ rest, s.inputs = .host (.write .w32 off v) :: rest

/-- The platform resets the core next. -/
def resetsNext (s : State) : Prop := ∃ rest, s.inputs = .reset :: rest

end Sys2Proof.Machine
end

