-- ==== Sys2Proof/Certificates/Slice0/Obligations.lean ====
section
/-! DEFINITION. The statements made about the model, for the provers. Each docstring names the rule or section of spec/ it
formalises. A `{ s with … }` gives the whole next state, so it is the command's result and its frame at once. -/

open Sys2Proof Sys2Proof.Machine

/-! ### Encoding (30_encoding.md) -/

/-- 95_test_vectors.md section 2: decode(enc(X)) = X for every command X. -/
def Obligations.DecodeOfEncodeIsTheCommand : Prop :=
  ∀ i : Instr, i.wellFormed = true → decode (encode i) = .command i

/-- 95_test_vectors.md section 2: decoding is the exact inverse of encoding on legal words, so each command has one word. -/
def Obligations.LegalWordIsTheEncodingOfItsCommand : Prop :=
  ∀ (w : Word) (i : Instr), decode w = .command i → i.wellFormed = true ∧ encode i = w

/-- 30_encoding.md R82: a word spells the command of a row exactly when `w & mask = match`, and no word matches two rows. -/
def Obligations.DecoderFollowsTheOpcodeMap : Prop :=
  (∀ (w : Word) (row : OpcodeRow), row ∈ opcodeTable →
    (row.spells w = true ↔ ∃ i, decode w = .command i ∧ i.row = row)) ∧
  (∀ (w : Word) (i : Instr), decode w = .command i → i.row ∈ opcodeTable) ∧
  (∀ (w : Word) (row row' : OpcodeRow), row ∈ opcodeTable → row' ∈ opcodeTable →
    row.spells w = true → row'.spells w = true → row = row')

/-- 95_test_vectors.md section 2: chosen words and what they decode to. -/
def Obligations.ChosenWordsDecodeAsTheSpecLists : Prop :=
  decode 0x00000000 = .command .nop ∧ decode 0x00000A10 = .command (.ark 10) ∧
  decode 0x00000F10 = .command (.ark 15) ∧ decode 0x00000016 = .command .imc ∧
  decode 0x83570021 = .command (.gmul 0x57 0x83) ∧ decode 0x00ED0023 = .command (.isbox 0xED) ∧
  decodeTableWord 32 0x00570020 = some (.xtime 0x57) ∧
  ∀ s, ready s →
    offer 0x00001010 s = { s with status := { s.status with err := 4 } } ∧
    offer 0x00000017 s = { s with status := { s.status with err := 4 } } ∧
    offer 0x83570121 s = { s with status := { s.status with err := 4 } }

/-! ### Galois field and S-box (40_galois_field.md, 41_sbox.md) -/

/-- 40_galois_field.md R108, with xtime as R101 writes it a second time. -/
def Obligations.XtimeCommandDoublesIntoGfres : Prop :=
  illegalWhenUnusedSet 0x20 false true false ∧
  ∀ a : Byte,
    encode (.xtime a) = 0x00000020 ||| (a.setWidth 32 <<< 16) ∧
    acceptedWhenReady (.xtime a) ∧
    ∀ s, exec (.xtime a) s =
      .next { s with gfres := (a <<< 1) ^^^ (if a.getLsbD 7 then 0x1B else 0x00), pend := none,
                     status := { s.status with busy := false } }

/-- 40_galois_field.md R109, with the product as R102 writes it a second time: the XOR, over the bits i of b that are 1, of
xtime^i(a). -/
def Obligations.GmulCommandMultipliesIntoGfres : Prop :=
  illegalWhenUnusedSet 0x21 false true true ∧
  ∀ a b : Byte,
    encode (.gmul a b) = 0x00000021 ||| (a.setWidth 32 <<< 16) ||| (b.setWidth 32 <<< 24) ∧
    acceptedWhenReady (.gmul a b) ∧
    ∀ s,
      exec (.gmul a b) s =
        .next { s with
          gfres := (List.range 8).foldl (fun r i => if b.getLsbD i then r ^^^ Nat.iterate xtime i a else r) 0,
          pend := none, status := { s.status with busy := false } } ∧
      exec (.gmul a b) s = exec (.gmul b a) s

/-- 40_galois_field.md section 2, the field laws (the spec marks them as general knowledge). -/
def Obligations.GmulObeysTheFieldLaws : Prop :=
  (∀ a b, gmul a b = gmul b a) ∧ (∀ a b c, gmul (gmul a b) c = gmul a (gmul b c)) ∧
  (∀ a b c, gmul a (b ^^^ c) = gmul a b ^^^ gmul a c) ∧ (∀ a, gmul 1 a = a) ∧ (∀ a, gmul 0 a = 0) ∧
  (∀ a, a ≠ 0 → ∃ b, gmul a b = 1 ∧ ∀ b', gmul a b' = 1 → b' = b)

/-- 40_galois_field.md section 1, the constant multiples (the spec derives the compositions): each equals the product. -/
def Obligations.DatapathMultiplesAreProducts : Prop :=
  ∀ b : Byte, gmul 0x01 b = b ∧ gmul 0x02 b = times2 b ∧ gmul 0x03 b = times3 b ∧ gmul 0x09 b = times9 b ∧
    gmul 0x0B b = times11 b ∧ gmul 0x0D b = times13 b ∧ gmul 0x0E b = times14 b

/-- 41_sbox.md R124, R125: the entry at row a[7:4], column a[3:0], goes to GFRES; SBOX then ISBOX of GFRES gives x back. -/
def Obligations.SboxCommandsLookUpIntoGfres : Prop :=
  illegalWhenUnusedSet 0x22 false true false ∧ illegalWhenUnusedSet 0x23 false true false ∧
  (∀ a : Byte,
    encode (.sbox a) = 0x00000022 ||| (a.setWidth 32 <<< 16) ∧
    encode (.isbox a) = 0x00000023 ||| (a.setWidth 32 <<< 16) ∧
    acceptedWhenReady (.sbox a) ∧ acceptedWhenReady (.isbox a) ∧
    ∀ s,
      exec (.sbox a) s =
        .next { s with
          gfres := (sboxRows.getD (a.extractLsb' 4 4).toNat []).getD (a.extractLsb' 0 4).toNat 0,
          pend := none, status := { s.status with busy := false } } ∧
      exec (.isbox a) s =
        .next { s with
          gfres := (isboxRows.getD (a.extractLsb' 4 4).toNat []).getD (a.extractLsb' 0 4).toNat 0,
          pend := none, status := { s.status with busy := false } }) ∧
  (∀ x s t u, exec (.sbox x) s = .next t → exec (.isbox t.gfres) t = .next u → u.gfres = x)

/-- 41_sbox.md, how the table is generated and the inverse contract (the spec marks the construction as general knowledge):
SBOX[x] is the affine map of the multiplicative inverse, ISBOX inverts SBOX, and SBOX has no fixed and no opposite fixed
point. -/
def Obligations.SboxIsTheAffineImageOfTheInverse : Prop :=
  (∀ x y : Byte, gmul x y = 1 →
    sbox x = y ^^^ y.rotateLeft 1 ^^^ y.rotateLeft 2 ^^^ y.rotateLeft 3 ^^^ y.rotateLeft 4 ^^^ 0x63) ∧
  sbox 0 = 0x63 ∧
  (∀ x : Byte, isbox (sbox x) = x ∧ sbox (isbox x) = x ∧ sbox x ≠ x ∧ sbox x ≠ x ^^^ 0xFF)

/-! ### Key expansion (42_key_expansion.md) -/

/-- 42_key_expansion.md R137 with the recurrence of R134 written out: KEXP with a legal KEYLEN. `word` reads W. A later write
to K or KEYLEN (to anything but CMD) leaves W alone. -/
def Obligations.KexpExpandsTheMasterKey : Prop :=
  encode .kexp = 0x00000001 ∧ illegalWhenUnusedSet 0x01 false false false ∧
  (∀ s, ready s → s.keylen ≠ 16 → s.keylen ≠ 24 → s.keylen ≠ 32 → (offer 0x00000001 s).status.err = 1) ∧
  (∀ (u t : State) (off : BitVec 12) (v : Word), off ≠ 0x000 →
    hostStep (.write .w32 off v) u = .next t → t.W = u.W) ∧
  ∀ (s : State) (nk : Nat),
    (nk = 4 ∧ s.keylen = 16) ∨ (nk = 6 ∧ s.keylen = 24) ∨ (nk = 8 ∧ s.keylen = 32) →
    (ready s → offer 0x00000001 s =
      { s with pend := some 0x00000001, status := { s.status with busy := true } }) ∧
    ∃ W : Vector Quad 60, ∃ word : Nat → Quad, (∀ i : Fin 60, word i.val = W[i]) ∧
      exec .kexp s =
        .next { s with W := W, pend := none,
                       status := { s.status with busy := false, valid := true, nk := BitVec.ofNat 4 nk,
                                                 nr := BitVec.ofNat 4 (nk + 6) } } ∧
      (∀ (j : Fin 32), j.val < 4 * nk → quadGet (word (j.val / 4)) (Fin.ofNat 4 j.val) = keyByte s j) ∧
      (∀ i, nk ≤ i → i < 4 * (nk + 7) → ∃ prev temp, prev = word (i - 1) ∧
        (i % nk = 0 → temp =
          ⟨sbox prev.b1 ^^^
            ([0x01, 0x02, 0x04, 0x08, 0x10, 0x20, 0x40, 0x80, 0x1B, 0x36] : List Byte).getD (i / nk - 1) 0,
           sbox prev.b2, sbox prev.b3, sbox prev.b0⟩) ∧
        (i % nk ≠ 0 → nk = 8 ∧ i % nk = 4 → temp = ⟨sbox prev.b0, sbox prev.b1, sbox prev.b2, sbox prev.b3⟩) ∧
        (i % nk ≠ 0 → ¬(nk = 8 ∧ i % nk = 4) → temp = prev) ∧
        word i = quadXor (word (i - nk)) temp) ∧
      (∀ i, 4 * (nk + 7) ≤ i → i < 60 → word i = ⟨0, 0, 0, 0⟩)

/-- 42_key_expansion.md R135, R138: KEXP offered with any other KEYLEN raises InvalidKeyLength and wipes the RoundKeySet. -/
def Obligations.KexpWithIllegalLengthWipesTheKeySet : Prop :=
  ∀ s : State, s.keylen ≠ 16 → s.keylen ≠ 24 → s.keylen ≠ 32 →
    ready s → offer 0x00000001 s =
      { s with W := Vector.replicate 60 ⟨0, 0, 0, 0⟩,
               status := { busy := false, valid := false, err := 1, nk := 0, nr := 0 } }

/-- 42_key_expansion.md R136: only KEYLEN and K[0..KEYLEN-1] decide what KEXP writes. -/
def Obligations.KexpReadsNoKeyByteBeyondKeylen : Prop :=
  ∀ s s' t t' : State, s.keylen = s'.keylen →
    (∀ j : Fin 32, j.val < s.keylen.toNat → keyByte s j = keyByte s' j) →
    exec .kexp s = .next t → exec .kexp s' = .next t' →
    t.W = t'.W ∧ t.status.valid = t'.status.valid ∧ t.status.nk = t'.status.nk ∧ t.status.nr = t'.status.nr

/-- 42_key_expansion.md section 3, word count (the spec derives it): after a successful KEXP the first round key is the
first 16 key bytes. -/
def Obligations.FirstRoundKeyIsTheKeysFirstBytes : Prop :=
  ∀ s t : State, s.keylen = 16 ∨ s.keylen = 24 ∨ s.keylen = 32 → exec .kexp s = .next t →
    ∀ k : Fin 16, stateToBytes (roundKey t 0) k = keyByte s (k.castLE (by decide))

/-! ### Round operations (43_round_ops.md) -/

/-- 43_round_ops.md R158: ARK. Round 15 is always out of range, since NR ≤ 14 (the invariant `Consistent`). -/
def Obligations.ArkXorsTheRoundKey : Prop :=
  illegalWhenUnusedSet 0x10 true false false ∧
  (∀ s : State, Consistent s → ready s → s.status.valid = true →
    offer 0x00000F10 s = { s with status := { s.status with err := 3 } }) ∧
  ∀ (r : Nat), r ≤ 15 →
    encode (.ark r) = 0x00000010 ||| (BitVec.ofNat 32 r <<< 8) ∧
    ∀ s : State,
      (s.status.valid = true → r ≤ s.status.nr.toNat →
        (ready s → offer (encode (.ark r)) s =
          { s with pend := some (encode (.ark r)), status := { s.status with busy := true } }) ∧
        ∃ T : Block,
          (∀ i c : Fin 4, blockGet T i c = blockGet s.S i c ^^^ quadGet (roundKeyWord s (4 * r + c.val)) i) ∧
          exec (.ark r) s = .next { s with S := T, pend := none, status := { s.status with busy := false } }) ∧
      (s.status.valid = false → ready s →
        offer (encode (.ark r)) s = { s with status := { s.status with err := 2 } }) ∧
      (s.status.valid = true → s.status.nr.toNat < r → ready s →
        offer (encode (.ark r)) s = { s with status := { s.status with err := 3 } })

/-- 43_round_ops.md R159, R160: SB and ISB. -/
def Obligations.SubBytesCommandsMapEachByte : Prop :=
  encode .sb = 0x00000011 ∧ encode .isb = 0x00000012 ∧ acceptedWhenReady .sb ∧ acceptedWhenReady .isb ∧
  illegalWhenUnusedSet 0x11 false false false ∧ illegalWhenUnusedSet 0x12 false false false ∧
  ∀ s : State,
    (∃ T : Block, (∀ r c, blockGet T r c = sbox (blockGet s.S r c)) ∧
      exec .sb s = .next { s with S := T, pend := none, status := { s.status with busy := false } }) ∧
    (∃ T : Block, (∀ r c, blockGet T r c = isbox (blockGet s.S r c)) ∧
      exec .isb s = .next { s with S := T, pend := none, status := { s.status with busy := false } })

/-- 43_round_ops.md R161, R162: SR and ISR, by row and by the serialized permutations P_SR and P_ISR. -/
def Obligations.ShiftRowsCommandsRotateTheRows : Prop :=
  encode .sr = 0x00000013 ∧ encode .isr = 0x00000014 ∧ acceptedWhenReady .sr ∧ acceptedWhenReady .isr ∧
  illegalWhenUnusedSet 0x13 false false false ∧ illegalWhenUnusedSet 0x14 false false false ∧
  ∀ s : State,
    (∃ T : Block, (∀ r c : Fin 4, blockGet T r c = blockGet s.S r (c + r)) ∧
      (∀ k : Fin 16, stateToBytes T k = stateToBytes s.S
        (([0, 5, 10, 15, 4, 9, 14, 3, 8, 13, 2, 7, 12, 1, 6, 11] : List (Fin 16)).getD k.val 0)) ∧
      exec .sr s = .next { s with S := T, pend := none, status := { s.status with busy := false } }) ∧
    (∃ T : Block, (∀ r c : Fin 4, blockGet T r c = blockGet s.S r (c - r)) ∧
      (∀ k : Fin 16, stateToBytes T k = stateToBytes s.S
        (([0, 13, 10, 7, 4, 1, 14, 11, 8, 5, 2, 15, 12, 9, 6, 3] : List (Fin 16)).getD k.val 0)) ∧
      exec .isr s = .next { s with S := T, pend := none, status := { s.status with busy := false } })

/-- 43_round_ops.md R163, R164: MC and IMC as matrix products in GF(2^8). -/
def Obligations.MixColumnsCommandsMultiplyEachColumn : Prop :=
  encode .mc = 0x00000015 ∧ encode .imc = 0x00000016 ∧ acceptedWhenReady .mc ∧ acceptedWhenReady .imc ∧
  illegalWhenUnusedSet 0x15 false false false ∧ illegalWhenUnusedSet 0x16 false false false ∧
  ∀ s : State,
    (∃ T : Block, (∀ c : Fin 4, ∃ a : Fin 4 → Byte, (∀ r, a r = blockGet s.S r c) ∧
        blockGet T 0 c = gmul 2 (a 0) ^^^ gmul 3 (a 1) ^^^ gmul 1 (a 2) ^^^ gmul 1 (a 3) ∧
        blockGet T 1 c = gmul 1 (a 0) ^^^ gmul 2 (a 1) ^^^ gmul 3 (a 2) ^^^ gmul 1 (a 3) ∧
        blockGet T 2 c = gmul 1 (a 0) ^^^ gmul 1 (a 1) ^^^ gmul 2 (a 2) ^^^ gmul 3 (a 3) ∧
        blockGet T 3 c = gmul 3 (a 0) ^^^ gmul 1 (a 1) ^^^ gmul 1 (a 2) ^^^ gmul 2 (a 3)) ∧
      exec .mc s = .next { s with S := T, pend := none, status := { s.status with busy := false } }) ∧
    (∃ T : Block, (∀ c : Fin 4, ∃ a : Fin 4 → Byte, (∀ r, a r = blockGet s.S r c) ∧
        blockGet T 0 c = gmul 14 (a 0) ^^^ gmul 11 (a 1) ^^^ gmul 13 (a 2) ^^^ gmul 9 (a 3) ∧
        blockGet T 1 c = gmul 9 (a 0) ^^^ gmul 14 (a 1) ^^^ gmul 11 (a 2) ^^^ gmul 13 (a 3) ∧
        blockGet T 2 c = gmul 13 (a 0) ^^^ gmul 9 (a 1) ^^^ gmul 14 (a 2) ^^^ gmul 11 (a 3) ∧
        blockGet T 3 c = gmul 11 (a 0) ^^^ gmul 13 (a 1) ^^^ gmul 9 (a 2) ^^^ gmul 14 (a 3)) ∧
      exec .imc s = .next { s with S := T, pend := none, status := { s.status with busy := false } })

/-- 43_round_ops.md section 1, inverse and commuting laws (the spec derives them). -/
def Obligations.RoundFunctionsObeyTheirInverseLaws : Prop :=
  ∀ T k : Block,
    invShiftRows (shiftRows T) = T ∧ shiftRows (invShiftRows T) = T ∧
    invSubBytes (subBytes T) = T ∧ subBytes (invSubBytes T) = T ∧
    invMixColumns (mixColumns T) = T ∧ mixColumns (invMixColumns T) = T ∧
    addRoundKey (addRoundKey T k) k = T ∧
    subBytes (shiftRows T) = shiftRows (subBytes T) ∧
    invSubBytes (invShiftRows T) = invShiftRows (invSubBytes T) ∧
    invMixColumns (addRoundKey T k) = addRoundKey (invMixColumns T) (invMixColumns k)

/-! ### Block transform (44_block_transform.md) -/

/-- 44_block_transform.md R180: ENC. -/
def Obligations.EncRunsTheCipherRounds : Prop :=
  encode .enc = 0x00000002 ∧ illegalWhenUnusedSet 0x02 false false false ∧
  (∀ s, ready s → s.status.valid = false →
    offer 0x00000002 s = { s with status := { s.status with err := 2 } }) ∧
  ∀ s : State, s.status.valid = true →
    (ready s → offer 0x00000002 s =
      { s with pend := some 0x00000002, status := { s.status with busy := true } }) ∧
    ∃ T0 T1 T2 : Block, T0 = addRoundKey s.S (roundKey s 0) ∧
      T1 = (List.range' 1 (s.status.nr.toNat - 1)).foldl
        (fun T round => addRoundKey (mixColumns (shiftRows (subBytes T))) (roundKey s round)) T0 ∧
      T2 = addRoundKey (shiftRows (subBytes T1)) (roundKey s s.status.nr.toNat) ∧
      exec .enc s = .next { s with S := T2, pend := none, status := { s.status with busy := false } }

/-- 44_block_transform.md R182: DEC. -/
def Obligations.DecRunsTheInverseRounds : Prop :=
  encode .dec = 0x00000003 ∧ illegalWhenUnusedSet 0x03 false false false ∧
  (∀ s, ready s → s.status.valid = false →
    offer 0x00000003 s = { s with status := { s.status with err := 2 } }) ∧
  ∀ s : State, s.status.valid = true →
    (ready s → offer 0x00000003 s =
      { s with pend := some 0x00000003, status := { s.status with busy := true } }) ∧
    ∃ T0 T1 T2 : Block, T0 = addRoundKey s.S (roundKey s s.status.nr.toNat) ∧
      T1 = (List.range' 1 (s.status.nr.toNat - 1)).reverse.foldl
        (fun T round => invMixColumns (addRoundKey (invSubBytes (invShiftRows T)) (roundKey s round))) T0 ∧
      T2 = addRoundKey (invSubBytes (invShiftRows T1)) (roundKey s 0) ∧
      exec .dec s = .next { s with S := T2, pend := none, status := { s.status with busy := false } }

/-- 44_block_transform.md, round trip (the spec derives it): ENC then DEC, and DEC then ENC, give the block back, under any
RoundKeySet, so also after KEXP of any legal key. -/
def Obligations.EncAndDecUndoEachOther : Prop :=
  (∀ s : State, s.status.valid = true →
    (∃ t, exec .enc s = .next t ∧
      exec .dec t = .next { s with pend := none, status := { s.status with busy := false } }) ∧
    (∃ t, exec .dec s = .next t ∧
      exec .enc t = .next { s with pend := none, status := { s.status with busy := false } })) ∧
  (∀ (s : State) (x : Block), s.keylen = 16 ∨ s.keylen = 24 ∨ s.keylen = 32 →
    ∃ k t u, exec .kexp s = .next k ∧ execAll [.enc, .dec] { k with S := x } = .next t ∧ t.S = x ∧
      execAll [.dec, .enc] { k with S := x } = .next u ∧ u.S = x)

/-- 44_block_transform.md, equivalence with primitive commands (the spec derives it): the commands ARK, SB, SR, MC, ARK, …
leave what ENC leaves, and ARK, ISR, ISB, ARK, IMC, … what DEC leaves. -/
def Obligations.PrimitiveCommandsComposeToTheTransform : Prop :=
  ∀ s : State, s.status.valid = true →
    execAll (encCommands s.status.nr.toNat) s = exec .enc s ∧
    execAll (decCommands s.status.nr.toNat) s = exec .dec s ∧ ∃ t u, exec .enc s = .next t ∧ exec .dec s = .next u

/-! ### Command issue and completion (45_control.md) -/

/-- 45_control.md R192: NOP. -/
def Obligations.NopOnlyRetires : Prop :=
  encode .nop = 0x00000000 ∧ acceptedWhenReady .nop ∧ illegalWhenUnusedSet 0x00 false false false ∧
  (∀ s : State, exec .nop s = .next { s with pend := none, status := { s.status with busy := false } }) ∧
  (∀ s : State, s.status.busy = false → s.status.err ≠ 0 → offer 0x00000000 s = s) ∧
  (∀ s : State, s.status.busy = true → offer 0x00000000 s =
    { s with status := { s.status with err := if s.status.err = 0 then 5 else s.status.err } })

/-- 45_control.md R190: the checks of a CMD write, in order (the priority of 60_exceptions.md). -/
def Obligations.CommandWriteIsCheckedInOrder : Prop :=
  ∀ (w : Word) (s : State),
    (s.status.busy = true → offer w s =
      { s with status := { s.status with err := if s.status.err = 0 then 5 else s.status.err } }) ∧
    (s.status.busy = false → s.status.err ≠ 0 → offer w s = s) ∧
    (s.status.busy = false → s.status.err = 0 →
      ((∀ i, decode w ≠ .command i) → offer w s = { s with status := { s.status with err := 4 } }) ∧
      (∀ i, decode w = .command i →
        (i = .kexp → s.keylen ≠ 16 → s.keylen ≠ 24 → s.keylen ≠ 32 → offer w s =
          { s with W := Vector.replicate 60 ⟨0, 0, 0, 0⟩,
                   status := { busy := false, valid := false, err := 1, nk := 0, nr := 0 } }) ∧
        (i = .enc ∨ i = .dec ∨ (∃ r, i = .ark r) → s.status.valid = false →
          offer w s = { s with status := { s.status with err := 2 } }) ∧
        (∀ r, i = .ark r → s.status.valid = true → s.status.nr.toNat < r →
          offer w s = { s with status := { s.status with err := 3 } }) ∧
        ((i = .kexp → s.keylen = 16 ∨ s.keylen = 24 ∨ s.keylen = 32) →
          (i = .enc ∨ i = .dec → s.status.valid = true) →
          (∀ r, i = .ark r → s.status.valid = true ∧ r ≤ s.status.nr.toNat) →
          offer w s = { s with pend := some w, status := { s.status with busy := true } })))

/-- 45_control.md R191: acceptance sets PEND and BUSY only; while BUSY = 1 no host access changes the inputs of the pending
command; and the completion of an accepted command cannot fail. -/
def Obligations.AcceptedCommandCannotFail : Prop :=
  (∀ (w : Word) (s : State),
    accept w s = { s with pend := some w, status := { s.status with busy := true } }) ∧
  (∀ (a : Access) (s t : State), s.status.busy = true → hostStep a s = .next t →
    t.S = s.S ∧ t.K = s.K ∧ t.keylen = s.keylen ∧ t.W = s.W ∧ t.status.valid = s.status.valid ∧
    t.status.nr = s.status.nr ∧ t.pend = s.pend ∧ t.status.busy = true) ∧
  (∀ (w : Word) (s : State), Consistent s → s.pend = some w →
    ∃ i t, decode w = .command i ∧ coreStep s = .next t ∧ exec i s = .next t ∧ t.pend = none ∧
      t.status.busy = false ∧ t.status.err = s.status.err)

/-- 45_control.md, completion: the core's turn is exec of the decoded pending word, with its own turn taken off the
inputs; it is the model's own exec (log 9). -/
def Obligations.CoreTurnRunsTheDecodedCommand : Prop :=
  ∀ (s : State) (w : Word) (i : Instr), s.pend = some w → decode w = .command i →
    (s.inputs = [] → step s = exec i s) ∧
    (∀ rest, s.inputs = .core :: rest → step s = exec i { s with inputs := rest })

/-- 10_state.md section 1: a step is one host access, one completion or one reset. The choices of the model in it: whose step
comes next stands in `inputs` (log 1), with no input left the core completes what is pending, or the machine is idle (log 2),
a turn of the core with nothing pending does nothing (log 3), and reset keeps the model's own fields (log 16). -/
def Obligations.StepIsOneAgentsTurn : Prop :=
  ∀ (s : State) (rest : List Event),
    (∀ a, s.inputs = .host a :: rest → step s = hostStep a { s with inputs := rest }) ∧
    (s.inputs = .reset :: rest → step s =
      .next { State.reset with inputs := rest, reply := s.reply, draws := s.draws }) ∧
    (∀ w, s.pend = some w → s.inputs = .core :: rest → step s = coreStep { s with inputs := rest }) ∧
    (∀ w, s.pend = some w → s.inputs = [] → step s = coreStep s) ∧
    (s.pend = none → s.inputs = .core :: rest → step s = .next { s with inputs := rest }) ∧
    (s.pend = none → s.inputs = [] → step s = .next s)

/-- 45_control.md, acceptance and completion: a command offered to a ready core and then completed leaves what exec, the
whole command, leaves; one refused at acceptance leaves what exec leaves too (log 9). -/
def Obligations.OfferThenCompletionIsTheCommand : Prop :=
  ∀ (w : Word) (s : State) (i : Instr), ready s → decode w = .command i →
    (acceptanceError i s = none → ∃ t, exec i s = .next t ∧ coreStep (offer w s) = .next t) ∧
    (acceptanceError i s ≠ none → exec i s = .next (offer w s))

/-- 45_control.md, completion under weak fairness: a pending command completes within the inputs that are left, unless a
reset or a bus error intervenes. The model's reading of fairness is log 2. -/
def Obligations.PendingCommandCompletesInTime : Prop :=
  ∀ (s : State) (w : Word), Consistent s → s.pend = some w → (∀ e ∈ s.inputs, servedEvent e = true) →
    ∃ k, k ≤ s.inputs.length + 1 ∧ ∃ t, Host.Core.run Sys2Proof.core k s = .next t ∧
      t.pend = none ∧ t.status.busy = false

/-- 60_exceptions.md, busy, and 10_state.md, the completion step: host accesses made while a command is pending do not reach
it. It completes with the inputs it had at acceptance. -/
def Obligations.HostCannotReachAPendingCommand : Prop :=
  ∀ (s u t : State) (w : Word) (i : Instr) (as : List Access), s.status.busy = true → s.pend = some w →
    decode w = .command i → acceptanceError i s = none → hostAll as s = .next u → coreStep s = .next t →
    ∃ t', coreStep u = .next t' ∧ t'.S = t.S ∧ t'.K = t.K ∧ t'.keylen = t.keylen ∧ t'.W = t.W ∧
      t'.gfres = t.gfres ∧ t'.status.valid = t.status.valid ∧ t'.status.nk = t.status.nk ∧
      t'.status.nr = t.status.nr ∧ t'.status.busy = false ∧ t'.pend = none

/-! ### Errors (60_exceptions.md) -/

/-- 60_exceptions.md R203: a command offered to an idle core is accepted, dropped, or fails with nothing but its code
written, except that a failing KEXP also wipes the RoundKeySet; and no error is raised at completion. -/
def Obligations.FailingCommandWritesOnlyItsCode : Prop :=
  (∀ (w : Word) (s : State), s.status.busy = false →
    (offer w s = { s with pend := some w, status := { s.status with busy := true } } ∧ s.status.err = 0) ∨
    (offer w s = s ∧ s.status.err ≠ 0) ∨
    (s.status.err = 0 ∧ ∃ code : BitVec 4, (code = 2 ∨ code = 3 ∨ code = 4) ∧
      offer w s = { s with status := { s.status with err := code } }) ∨
    (s.status.err = 0 ∧ decode w = .command .kexp ∧ offer w s =
      { s with W := Vector.replicate 60 ⟨0, 0, 0, 0⟩,
               status := { busy := false, valid := false, err := 1, nk := 0, nr := 0 } })) ∧
  (∀ s t : State, Consistent s → coreStep s = .next t → t.status.err = s.status.err)

/-- 60_exceptions.md R204: while ERR ≠ 0 and BUSY = 0, a CMD write does nothing and the data registers still take writes. -/
def Obligations.ErrorBlocksCommandsButNotData : Prop :=
  ∀ (s : State) (v : Word), s.status.busy = false → s.status.err ≠ 0 →
    hostStep (.write .w32 0x000 v) s = .next { s with reply := .done } ∧
    hostStep (.write .w32 0x008 v) s = .next { s with keylen := v.extractLsb' 0 8, reply := .done } ∧
    (∀ c : Fin 4, ∃ T, hostStep (.write .w32 (BitVec.ofNat 12 (0x010 + 4 * c.val)) v) s =
        .next { s with S := T, reply := .done } ∧
        ∀ c' : Fin 4, quadToWord (blockColumn T c') = if c' = c then v else quadToWord (blockColumn s.S c')) ∧
    (∀ j : Fin 8, ∃ K, hostStep (.write .w32 (BitVec.ofNat 12 (0x020 + 4 * j.val)) v) s =
        .next { s with K := K, reply := .done } ∧
        ∀ j' : Fin 8, quadToWord K[j'] = if j' = j then v else quadToWord s.K[j'])

/-- 60_exceptions.md R210: a STATUS write clears ERR exactly when its bit 31 is 1, whatever BUSY is, and changes nothing
else. -/
def Obligations.StatusWriteClearsTheError : Prop :=
  ∀ (s : State) (v : Word),
    hostStep (.write .w32 0x004 v) s =
      .next { s with reply := .done,
                     status := { s.status with err := if v.getLsbD 31 then 0 else s.status.err } }

/-- 60_exceptions.md section 2, first error wins (the spec derives it): in every state, only a clearing STATUS write and
reset change a recorded error. -/
def Obligations.FirstErrorWinsUntilCleared : Prop :=
  ∀ s t : State, s.status.err ≠ 0 → step s = .next t → t.status.err ≠ s.status.err →
    t.status.err = 0 ∧ (resetsNext s ∨ ∃ v, hostWritesNext s 0x004 v ∧ v.getLsbD 31 = true)

/-- 70_reset_and_hazards.md R241: writes while BUSY = 1. -/
def Obligations.BusyWritesAreDroppedAndReported : Prop :=
  ∀ (s : State) (off : BitVec 12) (v : Word), s.status.busy = true → off.toNat % 4 = 0 →
    (off = 0x000 ∨ off = 0x008 ∨ (0x010 ≤ off.toNat ∧ off.toNat < 0x040) →
      hostStep (.write .w32 off v) s =
        .next { s with reply := .done,
                       status := { s.status with err := if s.status.err = 0 then 5 else s.status.err } }) ∧
    (off = 0x004 →
      hostStep (.write .w32 off v) s =
        .next { s with reply := .done,
                       status := { s.status with err := if v.getLsbD 31 then 0 else s.status.err } }) ∧
    (off = 0x00C ∨ 0x040 ≤ off.toNat → hostStep (.write .w32 off v) s = .next { s with reply := .done })

/-! ### The register window (20_memory.md) -/

/-- 20_memory.md R53: STATE0..3. A busy read is any value (the free value of log 5). -/
def Obligations.StateRegistersCarryTheColumns : Prop :=
  ∀ (s : State) (c : Fin 4) (v : Word) (off : BitVec 12), off = BitVec.ofNat 12 (0x010 + 4 * c.val) →
    (s.status.busy = false →
      (∃ x, hostStep (.read .w32 off) s = .next { s with reply := .data x } ∧
        x.extractLsb' 24 8 = blockGet s.S 0 c ∧ x.extractLsb' 16 8 = blockGet s.S 1 c ∧
        x.extractLsb' 8 8 = blockGet s.S 2 c ∧ x.extractLsb' 0 8 = blockGet s.S 3 c) ∧
      (∃ T, hostStep (.write .w32 off v) s = .next { s with S := T, reply := .done } ∧
        ∀ r c' : Fin 4, blockGet T r c' =
          if c' = c then v.extractLsb' (24 - 8 * r.val) 8 else blockGet s.S r c')) ∧
    (s.status.busy = true →
      (hostStep (.read .w32 off) s =
        .next { s with reply := .data (Config.busyRead s.draws), draws := s.draws + 1 }) ∧
      hostStep (.write .w32 off v) s =
        .next { s with reply := .done,
                       status := { s.status with err := if s.status.err = 0 then 5 else s.status.err } })

/-- 20_memory.md R54: KEY0..7, readable at all times. -/
def Obligations.KeyRegistersCarryTheKeyBytes : Prop :=
  ∀ (s : State) (j : Fin 8) (v : Word) (off : BitVec 12), off = BitVec.ofNat 12 (0x020 + 4 * j.val) →
    (∃ x, hostStep (.read .w32 off) s = .next { s with reply := .data x } ∧
      ∀ m : Fin 32, m.val / 4 = j.val → x.extractLsb' (24 - 8 * (m.val % 4)) 8 = keyByte s m) ∧
    (s.status.busy = false →
      ∃ K, hostStep (.write .w32 off v) s = .next { s with K := K, reply := .done } ∧
        ∀ m : Fin 32, keyByte { s with K := K } m =
          if m.val / 4 = j.val then v.extractLsb' (24 - 8 * (m.val % 4)) 8 else keyByte s m) ∧
    (s.status.busy = true → hostStep (.write .w32 off v) s =
      .next { s with reply := .done,
                     status := { s.status with err := if s.status.err = 0 then 5 else s.status.err } })

/-- 20_memory.md R55: KEYLEN. -/
def Obligations.KeylenRegisterKeepsEightBits : Prop :=
  ∀ (s : State) (v : Word),
    hostStep (.read .w32 0x008) s = .next { s with reply := .data (s.keylen.setWidth 32) } ∧
    (s.status.busy = false →
      hostStep (.write .w32 0x008 v) s = .next { s with keylen := v.extractLsb' 0 8, reply := .done }) ∧
    (s.status.busy = true → hostStep (.write .w32 0x008 v) s =
      .next { s with reply := .done,
                     status := { s.status with err := if s.status.err = 0 then 5 else s.status.err } })

/-- 20_memory.md R56: RKW0..59 are read-only, and round key r is the four registers from 0x100 + 16r up. -/
def Obligations.RoundKeyRegistersAreReadOnly : Prop :=
  (∀ (s : State) (r : Fin 15) (c : Fin 4), s.status.busy = false →
    hostStep (.read .w32 (BitVec.ofNat 12 (0x100 + 16 * r.val + 4 * c.val))) s =
      .next { s with reply := .data (quadToWord (blockColumn (roundKey s r.val) c)) }) ∧
  ∀ (s : State) (i : Fin 60) (v : Word) (off : BitVec 12), off = BitVec.ofNat 12 (0x100 + 4 * i.val) →
    (s.status.busy = false → ∃ x, hostStep (.read .w32 off) s = .next { s with reply := .data x } ∧
      x.extractLsb' 24 8 = s.W[i].b0 ∧ x.extractLsb' 16 8 = s.W[i].b1 ∧
      x.extractLsb' 8 8 = s.W[i].b2 ∧ x.extractLsb' 0 8 = s.W[i].b3) ∧
    (s.status.busy = true → hostStep (.read .w32 off) s =
      .next { s with reply := .data (Config.busyRead s.draws), draws := s.draws + 1 }) ∧
    hostStep (.write .w32 off v) s = .next { s with reply := .done }

/-- 20_memory.md R57 and 10_state.md R34: GFRES is read-only; CMD reads zero and offers what is written to it. -/
def Obligations.GfresIsReadOnlyAndCmdIsAPort : Prop :=
  ∀ (s : State) (v : Word),
    (s.status.busy = false →
      hostStep (.read .w32 0x00C) s = .next { s with reply := .data (s.gfres.setWidth 32) }) ∧
    (s.status.busy = true → hostStep (.read .w32 0x00C) s =
      .next { s with reply := .data (Config.busyRead s.draws), draws := s.draws + 1 }) ∧
    hostStep (.write .w32 0x00C v) s = .next { s with reply := .done } ∧
    hostStep (.read .w32 0x000) s = .next { s with reply := .data 0x00000000 } ∧
    hostStep (.write .w32 0x000 v) s = .next { offer v s with reply := .done }

/-- 20_memory.md R59: reserved offsets, and the reserved bits of KEYLEN, GFRES and STATUS. A busy read of GFRES is a draw
(R61), so its clause is for an idle core. -/
def Obligations.ReservedOffsetsAndBitsReadZero : Prop :=
  (∀ (s : State) (v : Word) (off : BitVec 12), off.toNat % 4 = 0 →
    (0x040 ≤ off.toNat ∧ off.toNat < 0x100) ∨ 0x1F0 ≤ off.toNat →
      hostStep (.read .w32 off) s = .next { s with reply := .data 0x00000000 } ∧
      hostStep (.write .w32 off v) s = .next { s with reply := .done }) ∧
  (∀ (s : State), ∃ k t : Word, hostStep (.read .w32 0x008) s = .next { s with reply := .data k } ∧
    k.extractLsb' 8 24 = 0 ∧ hostStep (.read .w32 0x004) s = .next { s with reply := .data t } ∧
    t.extractLsb' 2 2 = 0 ∧ t.extractLsb' 16 15 = 0) ∧
  (∀ (s : State), s.status.busy = false → ∃ g : Word,
    hostStep (.read .w32 0x00C) s = .next { s with reply := .data g } ∧ g.extractLsb' 8 24 = 0) ∧
  (∀ (s : State) (v w : Word),
    (v.extractLsb' 0 8 = w.extractLsb' 0 8 →
      hostStep (.write .w32 0x008 v) s = hostStep (.write .w32 0x008 w) s) ∧
    (v.getLsbD 31 = w.getLsbD 31 →
      hostStep (.write .w32 0x004 v) s = hostStep (.write .w32 0x004 w) s) ∧
    hostStep (.write .w32 0x00C v) s = hostStep (.write .w32 0x00C w) s)

/-- 20_memory.md R58: STATUS, exact at all times; the write's effect is that of 60_exceptions.md R210. -/
def Obligations.StatusRegisterReadsItsFields : Prop :=
  ∀ (s : State) (v : Word),
    (∃ x : Word, hostStep (.read .w32 0x004) s = .next { s with reply := .data x } ∧
      x.getLsbD 0 = s.status.busy ∧ x.getLsbD 1 = s.status.valid ∧ x.extractLsb' 2 2 = 0 ∧
      x.extractLsb' 4 4 = s.status.err ∧ x.extractLsb' 8 4 = s.status.nk ∧ x.extractLsb' 12 4 = s.status.nr ∧
      x.extractLsb' 16 16 = 0) ∧
    hostStep (.write .w32 0x004 v) s =
      .next { s with reply := .done,
                     status := { s.status with err := if v.getLsbD 31 then 0 else s.status.err } }

/-- 20_memory.md R61: while BUSY = 1, reads of STATE, RKW and GFRES are draws and all other reads are exact. It holds for
every value of the free value (log 5). -/
def Obligations.BusyReadsOfResultsAreDraws : Prop :=
  ∀ (s : State) (off : BitVec 12), s.status.busy = true → off.toNat % 4 = 0 →
    (off = 0x00C ∨ (0x010 ≤ off.toNat ∧ off.toNat < 0x020) ∨ (0x100 ≤ off.toNat ∧ off.toNat < 0x1F0) →
      hostStep (.read .w32 off) s =
        .next { s with reply := .data (Config.busyRead s.draws), draws := s.draws + 1 }) ∧
    (off = 0x000 ∨ off = 0x004 ∨ off = 0x008 ∨ (0x020 ≤ off.toNat ∧ off.toNat < 0x100) ∨ 0x1F0 ≤ off.toNat →
      ∃ x, hostStep (.read .w32 off) s = .next { s with reply := .data x } ∧
        hostStep (.read .w32 off) { s with status := { s.status with busy := false } } =
          .next { s with status := { s.status with busy := false },
                         reply := .data (if off = 0x004 then x &&& 0xFFFFFFFE else x) })

/-- 20_memory.md R51: exactly the aligned 32-bit accesses are served; any other is the host fault BusError(off). -/
def Obligations.OnlyAlignedWordAccessesAreServed : Prop :=
  ∀ (s : State) (width : Width) (off : BitVec 12) (v : Word),
    (¬(width = .w32 ∧ off.toNat % 4 = 0) →
      hostStep (.read width off) s = .fault (.busError off) ∧
      hostStep (.write width off v) s = .fault (.busError off)) ∧
    (width = .w32 ∧ off.toNat % 4 = 0 →
      ∃ t u, hostStep (.read width off) s = .next t ∧ hostStep (.write width off v) s = .next u)

/-- 20_memory.md section 4: a read changes nothing of the core, reads and the writes of KEYLEN, STATE and KEY are
idempotent. -/
def Obligations.ReadsChangeNothingAndDataWritesAreIdempotent : Prop :=
  (∀ (s t : State) (width : Width) (off : BitVec 12), hostStep (.read width off) s = .next t →
    t = { s with reply := t.reply, draws := t.draws } ∧
    (s.status.busy = false → hostStep (.read width off) t = .next t)) ∧
  (∀ (s t : State) (off : BitVec 12) (v : Word), 0x008 ≤ off.toNat → off.toNat < 0x040 →
    hostStep (.write .w32 off v) s = .next t → hostStep (.write .w32 off v) t = .next t)

/-- 10_state.md section 2 and 20_memory.md section 2: four STATE writes load a block in serialized order, and the four reads
give it back. -/
def Obligations.LoadedBlockReadsBack : Prop :=
  ∀ (s : State) (v0 v1 v2 v3 : Word), s.status.busy = false →
    ∃ t, hostAll [.write .w32 0x010 v0, .write .w32 0x014 v1, .write .w32 0x018 v2, .write .w32 0x01C v3] s =
        .next t ∧
      (∀ k : Fin 16, stateToBytes t.S k = (v0 ++ v1 ++ v2 ++ v3).extractLsb' (120 - 8 * k.val) 8) ∧
      bytesToState (stateToBytes t.S) = t.S ∧ t.K = s.K ∧ t.keylen = s.keylen ∧ t.W = s.W ∧
      t.gfres = s.gfres ∧ t.status = s.status ∧ t.pend = s.pend ∧
      hostStep (.read .w32 0x010) t = .next { t with reply := .data v0 } ∧
      hostStep (.read .w32 0x014) t = .next { t with reply := .data v1 } ∧
      hostStep (.read .w32 0x018) t = .next { t with reply := .data v2 } ∧
      hostStep (.read .w32 0x01C) t = .next { t with reply := .data v3 }

/-- 20_memory.md section 1: for every BASE the window is the 4096 host addresses from BASE up, and each is one offset. -/
def Obligations.WindowIsFourKilobytesAtBase : Prop :=
  baseAddress % 4096 = 0 ∧
  ∀ (addr : Nat) (off : BitVec 12), offsetOf addr = some off ↔ addr = hostAddress off

/-- 30_encoding.md section 5, the WAIT loop on its own: one turn of it reads STATUS, and leaves the loop exactly when BUSY is 0.
The host's program layer is the model's own reading (log 18). -/
def Obligations.WaitLoopsWhileBusy : Prop :=
  ∀ (s : State) (n : Nat) (vars : List (HostVar × Word)),
    ∃ vars', hostLines 3 { core := s, prog := waitLines n, pc := 0, vars := vars } =
      .next { core := { s with reply := .data (statusWord s.status) }, prog := waitLines n,
              pc := if s.status.busy then 0 else 3, vars := vars' }

/-! ### Reset and whole-machine rules -/

/-- 70_reset_and_hazards.md R230 and 10_state.md R42: the reset event, in any state, and the state the machine starts in. -/
def Obligations.ResetGivesEveryRegisterItsValue : Prop :=
  (∀ s : State, resetsNext s → ∃ t, step s = .next t ∧
    (∀ r c, blockGet t.S r c = 0x00) ∧ (∀ j, keyByte t j = 0x00) ∧ t.keylen = 0x00 ∧
    (∀ i : Fin 60, t.W[i] = ⟨0x00, 0x00, 0x00, 0x00⟩) ∧ t.gfres = 0x00 ∧ t.status.busy = false ∧
    t.status.valid = false ∧ t.status.err = 0 ∧ t.status.nk = 0 ∧ t.status.nr = 0 ∧
    statusWord t.status = 0x00000000 ∧ t.pend = none) ∧
  (∀ t : State, t = State.reset →
    (∀ r c, blockGet t.S r c = 0x00) ∧ (∀ j, keyByte t j = 0x00) ∧ t.keylen = 0x00 ∧
    (∀ i : Fin 60, t.W[i] = ⟨0x00, 0x00, 0x00, 0x00⟩) ∧ t.gfres = 0x00 ∧ t.status.busy = false ∧
    t.status.valid = false ∧ t.status.err = 0 ∧ t.status.nk = 0 ∧ t.status.nr = 0 ∧
    statusWord t.status = 0x00000000 ∧ t.pend = none)

/-- 70_reset_and_hazards.md section 1, after reset (the spec derives it): what each command does before any key is loaded. -/
def Obligations.FreshCoreRunsOnlyKeylessCommands : Prop :=
  ∀ (s : State) (i : Instr), ready s → s.status.valid = false → s.keylen = 0 → i.wellFormed = true →
    (i = .kexp → offer (encode i) s =
      { s with W := Vector.replicate 60 ⟨0, 0, 0, 0⟩,
               status := { busy := false, valid := false, err := 1, nk := 0, nr := 0 } }) ∧
    (i = .enc ∨ i = .dec ∨ (∃ r, i = .ark r) →
      offer (encode i) s = { s with status := { s.status with err := 2 } }) ∧
    (i ≠ .kexp → i ≠ .enc → i ≠ .dec → (∀ r, i ≠ .ark r) →
      offer (encode i) s =
        { s with pend := some (encode i), status := { s.status with busy := true } } ∧
      ∃ t, coreStep (offer (encode i) s) = .next t ∧ exec i s = .next t ∧ t.pend = none ∧ t.status = s.status ∧
        t.K = s.K ∧ t.keylen = s.keylen ∧ t.W = s.W)

/-- 10_state.md sections 3 and 4 (the round-key invariant, BUSY and PEND), 60_exceptions.md section 1, 45_control.md: every
step keeps the invariant, from every state that has it. -/
def Obligations.EveryStepKeepsTheInvariant : Prop :=
  ∀ s t : State, Consistent s → step s = .next t → Consistent t

/-- The invariant holds after reset, whatever the inputs to come. -/
def Obligations.ResetStateMeetsTheInvariant : Prop :=
  ∀ es : List Event, Consistent { State.reset with inputs := es }

/-- The consequence for runs: after any number of steps from reset, under any list of inputs, no undefined error code stands,
BUSY shows PEND, and NK, NR and VALID agree. -/
def Obligations.ReachableStatusIsConsistent : Prop :=
  ∀ (n : Nat) (es : List Event) (t : State),
    Host.Core.run Sys2Proof.core n { State.reset with inputs := es } = .next t →
    t.status.err.toNat ≤ 5 ∧ (t.status.busy = true ↔ t.pend ≠ none) ∧
    ((t.status.valid = false ∧ t.status.nk = 0 ∧ t.status.nr = 0 ∧ ∀ i : Fin 60, t.W[i] = ⟨0, 0, 0, 0⟩) ∨
      (t.status.valid = true ∧
        ((t.status.nk = 4 ∧ t.status.nr = 10) ∨ (t.status.nk = 6 ∧ t.status.nr = 12) ∨
          (t.status.nk = 8 ∧ t.status.nr = 14)) ∧
        ∀ i : Fin 60, 4 * (t.status.nr.toNat + 1) ≤ i.val → t.W[i] = ⟨0, 0, 0, 0⟩))

/-- 10_state.md section 2, who writes K and KEYLEN: only a KEY or KEYLEN write to an idle core, and reset; and such a write
changes no round key. -/
def Obligations.OnlyHostWritesChangeTheKey : Prop :=
  ∀ s t : State, step s = .next t →
    (t.K ≠ s.K → resetsNext s ∨ ∃ off v, hostWritesNext s off v ∧ s.status.busy = false ∧
      0x020 ≤ off.toNat ∧ off.toNat < 0x040 ∧ t.W = s.W ∧ t.status = s.status) ∧
    (t.keylen ≠ s.keylen → resetsNext s ∨ ∃ v, hostWritesNext s 0x008 v ∧ s.status.busy = false ∧
      t.W = s.W ∧ t.status = s.status)

/-- 10_state.md section 2, who writes W, and section 3, who writes VALID, NK and NR: a KEXP that completes, a CMD write of
KEXP that fails, and reset. -/
def Obligations.OnlyKexpAndResetChangeTheKeySet : Prop :=
  ∀ s t : State, step s = .next t →
    (t.W ≠ s.W ∨ t.status.valid ≠ s.status.valid ∨ t.status.nk ≠ s.status.nk ∨ t.status.nr ≠ s.status.nr) →
    resetsNext s ∨ completesNext s .kexp ∨
      ∃ v, hostWritesNext s 0x000 v ∧ decode v = .command .kexp ∧ s.status.busy = false ∧ s.status.err = 0 ∧
        t.status.valid = false ∧ t.status.err = 1

/-- 10_state.md section 2, who writes S and GFRES. -/
def Obligations.OnlyTheirOwnCommandsChangeStateAndGfres : Prop :=
  ∀ s t : State, step s = .next t →
    (t.gfres ≠ s.gfres → resetsNext s ∨
      ∃ i, completesNext s i ∧ ∃ a b, i = .xtime a ∨ i = .gmul a b ∨ i = .sbox a ∨ i = .isbox a) ∧
    (t.S ≠ s.S → resetsNext s ∨
      (∃ off v, hostWritesNext s off v ∧ s.status.busy = false ∧ 0x010 ≤ off.toNat ∧ off.toNat < 0x020) ∨
      ∃ i, completesNext s i ∧
        (i = .enc ∨ i = .dec ∨ (∃ r, i = .ark r) ∨ i = .sb ∨ i = .isb ∨ i = .sr ∨ i = .isr ∨ i = .mc ∨ i = .imc))

/-- 10_state.md section 4: PEND is set only by an accepted CMD write to a ready core, and emptied only by the core's step or
by reset. -/
def Obligations.PendIsSetByAcceptanceAndEmptiedByCompletion : Prop :=
  ∀ s t : State, step s = .next t → t.pend ≠ s.pend →
    (t.pend = none ∧ (resetsNext s ∨ coreMovesNext s)) ∨
    (∃ v, hostWritesNext s 0x000 v ∧ t.pend = some v ∧ t.status.busy = true ∧ s.status.busy = false ∧
      s.status.err = 0)
end

