-- ==== Sys2Proof/Laws/State.lean ====
section
/-! SUPPORT. One lemma per field per update of State, all by rfl, so that no proof unfolds a record update. -/

namespace Sys2Proof.Machine

variable (s : State)

@[simp] theorem setBlock_S (T : Block) : (setBlock T s).S = T := rfl
@[simp] theorem setBlock_K (T : Block) : (setBlock T s).K = s.K := rfl
@[simp] theorem setBlock_keylen (T : Block) : (setBlock T s).keylen = s.keylen := rfl
@[simp] theorem setBlock_W (T : Block) : (setBlock T s).W = s.W := rfl
@[simp] theorem setBlock_gfres (T : Block) : (setBlock T s).gfres = s.gfres := rfl
@[simp] theorem setBlock_status (T : Block) : (setBlock T s).status = s.status := rfl
@[simp] theorem setBlock_pend (T : Block) : (setBlock T s).pend = s.pend := rfl
@[simp] theorem setBlock_inputs (T : Block) : (setBlock T s).inputs = s.inputs := rfl
@[simp] theorem setBlock_reply (T : Block) : (setBlock T s).reply = s.reply := rfl
@[simp] theorem setBlock_draws (T : Block) : (setBlock T s).draws = s.draws := rfl

@[simp] theorem setGfres_S (v : Byte) : (setGfres v s).S = s.S := rfl
@[simp] theorem setGfres_K (v : Byte) : (setGfres v s).K = s.K := rfl
@[simp] theorem setGfres_keylen (v : Byte) : (setGfres v s).keylen = s.keylen := rfl
@[simp] theorem setGfres_W (v : Byte) : (setGfres v s).W = s.W := rfl
@[simp] theorem setGfres_gfres (v : Byte) : (setGfres v s).gfres = v := rfl
@[simp] theorem setGfres_status (v : Byte) : (setGfres v s).status = s.status := rfl
@[simp] theorem setGfres_pend (v : Byte) : (setGfres v s).pend = s.pend := rfl
@[simp] theorem setGfres_inputs (v : Byte) : (setGfres v s).inputs = s.inputs := rfl
@[simp] theorem setGfres_reply (v : Byte) : (setGfres v s).reply = s.reply := rfl
@[simp] theorem setGfres_draws (v : Byte) : (setGfres v s).draws = s.draws := rfl

@[simp] theorem setKeylen_S (v : Byte) : (setKeylen v s).S = s.S := rfl
@[simp] theorem setKeylen_K (v : Byte) : (setKeylen v s).K = s.K := rfl
@[simp] theorem setKeylen_keylen (v : Byte) : (setKeylen v s).keylen = v := rfl
@[simp] theorem setKeylen_W (v : Byte) : (setKeylen v s).W = s.W := rfl
@[simp] theorem setKeylen_gfres (v : Byte) : (setKeylen v s).gfres = s.gfres := rfl
@[simp] theorem setKeylen_status (v : Byte) : (setKeylen v s).status = s.status := rfl
@[simp] theorem setKeylen_pend (v : Byte) : (setKeylen v s).pend = s.pend := rfl
@[simp] theorem setKeylen_inputs (v : Byte) : (setKeylen v s).inputs = s.inputs := rfl
@[simp] theorem setKeylen_reply (v : Byte) : (setKeylen v s).reply = s.reply := rfl
@[simp] theorem setKeylen_draws (v : Byte) : (setKeylen v s).draws = s.draws := rfl

@[simp] theorem setKeyWord_S (j : Fin 8) (q : Quad) : (setKeyWord j q s).S = s.S := rfl
@[simp] theorem setKeyWord_K (j : Fin 8) (q : Quad) : (setKeyWord j q s).K = s.K.set j.val q j.isLt := rfl
@[simp] theorem setKeyWord_keylen (j : Fin 8) (q : Quad) : (setKeyWord j q s).keylen = s.keylen := rfl
@[simp] theorem setKeyWord_W (j : Fin 8) (q : Quad) : (setKeyWord j q s).W = s.W := rfl
@[simp] theorem setKeyWord_gfres (j : Fin 8) (q : Quad) : (setKeyWord j q s).gfres = s.gfres := rfl
@[simp] theorem setKeyWord_status (j : Fin 8) (q : Quad) : (setKeyWord j q s).status = s.status := rfl
@[simp] theorem setKeyWord_pend (j : Fin 8) (q : Quad) : (setKeyWord j q s).pend = s.pend := rfl
@[simp] theorem setKeyWord_inputs (j : Fin 8) (q : Quad) : (setKeyWord j q s).inputs = s.inputs := rfl
@[simp] theorem setKeyWord_reply (j : Fin 8) (q : Quad) : (setKeyWord j q s).reply = s.reply := rfl
@[simp] theorem setKeyWord_draws (j : Fin 8) (q : Quad) : (setKeyWord j q s).draws = s.draws := rfl

@[simp] theorem setReply_S (r : Reply) : (setReply r s).S = s.S := rfl
@[simp] theorem setReply_K (r : Reply) : (setReply r s).K = s.K := rfl
@[simp] theorem setReply_keylen (r : Reply) : (setReply r s).keylen = s.keylen := rfl
@[simp] theorem setReply_W (r : Reply) : (setReply r s).W = s.W := rfl
@[simp] theorem setReply_gfres (r : Reply) : (setReply r s).gfres = s.gfres := rfl
@[simp] theorem setReply_status (r : Reply) : (setReply r s).status = s.status := rfl
@[simp] theorem setReply_pend (r : Reply) : (setReply r s).pend = s.pend := rfl
@[simp] theorem setReply_inputs (r : Reply) : (setReply r s).inputs = s.inputs := rfl
@[simp] theorem setReply_reply (r : Reply) : (setReply r s).reply = r := rfl
@[simp] theorem setReply_draws (r : Reply) : (setReply r s).draws = s.draws := rfl

@[simp] theorem countDraw_S : (countDraw s).S = s.S := rfl
@[simp] theorem countDraw_K : (countDraw s).K = s.K := rfl
@[simp] theorem countDraw_keylen : (countDraw s).keylen = s.keylen := rfl
@[simp] theorem countDraw_W : (countDraw s).W = s.W := rfl
@[simp] theorem countDraw_gfres : (countDraw s).gfres = s.gfres := rfl
@[simp] theorem countDraw_status : (countDraw s).status = s.status := rfl
@[simp] theorem countDraw_pend : (countDraw s).pend = s.pend := rfl
@[simp] theorem countDraw_inputs : (countDraw s).inputs = s.inputs := rfl
@[simp] theorem countDraw_reply : (countDraw s).reply = s.reply := rfl
@[simp] theorem countDraw_draws : (countDraw s).draws = s.draws + 1 := rfl

@[simp] theorem setInputs_S (es : List Event) : (setInputs es s).S = s.S := rfl
@[simp] theorem setInputs_K (es : List Event) : (setInputs es s).K = s.K := rfl
@[simp] theorem setInputs_keylen (es : List Event) : (setInputs es s).keylen = s.keylen := rfl
@[simp] theorem setInputs_W (es : List Event) : (setInputs es s).W = s.W := rfl
@[simp] theorem setInputs_gfres (es : List Event) : (setInputs es s).gfres = s.gfres := rfl
@[simp] theorem setInputs_status (es : List Event) : (setInputs es s).status = s.status := rfl
@[simp] theorem setInputs_pend (es : List Event) : (setInputs es s).pend = s.pend := rfl
@[simp] theorem setInputs_inputs (es : List Event) : (setInputs es s).inputs = es := rfl
@[simp] theorem setInputs_reply (es : List Event) : (setInputs es s).reply = s.reply := rfl
@[simp] theorem setInputs_draws (es : List Event) : (setInputs es s).draws = s.draws := rfl

@[simp] theorem accept_S (w : Word) : (accept w s).S = s.S := rfl
@[simp] theorem accept_K (w : Word) : (accept w s).K = s.K := rfl
@[simp] theorem accept_keylen (w : Word) : (accept w s).keylen = s.keylen := rfl
@[simp] theorem accept_W (w : Word) : (accept w s).W = s.W := rfl
@[simp] theorem accept_gfres (w : Word) : (accept w s).gfres = s.gfres := rfl
@[simp] theorem accept_status (w : Word) : (accept w s).status = { s.status with busy := true } := rfl
@[simp] theorem accept_pend (w : Word) : (accept w s).pend = some w := rfl
@[simp] theorem accept_inputs (w : Word) : (accept w s).inputs = s.inputs := rfl
@[simp] theorem accept_reply (w : Word) : (accept w s).reply = s.reply := rfl
@[simp] theorem accept_draws (w : Word) : (accept w s).draws = s.draws := rfl

@[simp] theorem retire_S : (retire s).S = s.S := rfl
@[simp] theorem retire_K : (retire s).K = s.K := rfl
@[simp] theorem retire_keylen : (retire s).keylen = s.keylen := rfl
@[simp] theorem retire_W : (retire s).W = s.W := rfl
@[simp] theorem retire_gfres : (retire s).gfres = s.gfres := rfl
@[simp] theorem retire_status : (retire s).status = { s.status with busy := false } := rfl
@[simp] theorem retire_pend : (retire s).pend = none := rfl
@[simp] theorem retire_inputs : (retire s).inputs = s.inputs := rfl
@[simp] theorem retire_reply : (retire s).reply = s.reply := rfl
@[simp] theorem retire_draws : (retire s).draws = s.draws := rfl

@[simp] theorem clearError_S : (clearError s).S = s.S := rfl
@[simp] theorem clearError_K : (clearError s).K = s.K := rfl
@[simp] theorem clearError_keylen : (clearError s).keylen = s.keylen := rfl
@[simp] theorem clearError_W : (clearError s).W = s.W := rfl
@[simp] theorem clearError_gfres : (clearError s).gfres = s.gfres := rfl
@[simp] theorem clearError_status : (clearError s).status = { s.status with err := 0 } := rfl
@[simp] theorem clearError_pend : (clearError s).pend = s.pend := rfl
@[simp] theorem clearError_inputs : (clearError s).inputs = s.inputs := rfl
@[simp] theorem clearError_reply : (clearError s).reply = s.reply := rfl
@[simp] theorem clearError_draws : (clearError s).draws = s.draws := rfl

@[simp] theorem recordError_S (e : ErrorName) : (recordError e s).S = s.S := rfl
@[simp] theorem recordError_K (e : ErrorName) : (recordError e s).K = s.K := rfl
@[simp] theorem recordError_keylen (e : ErrorName) : (recordError e s).keylen = s.keylen := rfl
@[simp] theorem recordError_W (e : ErrorName) : (recordError e s).W = s.W := rfl
@[simp] theorem recordError_gfres (e : ErrorName) : (recordError e s).gfres = s.gfres := rfl
@[simp] theorem recordError_status (e : ErrorName) : (recordError e s).status = { s.status with err := if s.status.err = 0 then errorCode e else s.status.err } := rfl
@[simp] theorem recordError_pend (e : ErrorName) : (recordError e s).pend = s.pend := rfl
@[simp] theorem recordError_inputs (e : ErrorName) : (recordError e s).inputs = s.inputs := rfl
@[simp] theorem recordError_reply (e : ErrorName) : (recordError e s).reply = s.reply := rfl
@[simp] theorem recordError_draws (e : ErrorName) : (recordError e s).draws = s.draws := rfl

@[simp] theorem wipeRoundKeys_S : (wipeRoundKeys s).S = s.S := rfl
@[simp] theorem wipeRoundKeys_K : (wipeRoundKeys s).K = s.K := rfl
@[simp] theorem wipeRoundKeys_keylen : (wipeRoundKeys s).keylen = s.keylen := rfl
@[simp] theorem wipeRoundKeys_W : (wipeRoundKeys s).W = Vector.replicate 60 quadZero := rfl
@[simp] theorem wipeRoundKeys_gfres : (wipeRoundKeys s).gfres = s.gfres := rfl
@[simp] theorem wipeRoundKeys_status : (wipeRoundKeys s).status = { s.status with valid := false, nk := 0, nr := 0 } := rfl
@[simp] theorem wipeRoundKeys_pend : (wipeRoundKeys s).pend = s.pend := rfl
@[simp] theorem wipeRoundKeys_inputs : (wipeRoundKeys s).inputs = s.inputs := rfl
@[simp] theorem wipeRoundKeys_reply : (wipeRoundKeys s).reply = s.reply := rfl
@[simp] theorem wipeRoundKeys_draws : (wipeRoundKeys s).draws = s.draws := rfl

@[simp] theorem setRoundKeys_S (w : Vector Quad 60) (nk nr : Nat) : (setRoundKeys w nk nr s).S = s.S := rfl
@[simp] theorem setRoundKeys_K (w : Vector Quad 60) (nk nr : Nat) : (setRoundKeys w nk nr s).K = s.K := rfl
@[simp] theorem setRoundKeys_keylen (w : Vector Quad 60) (nk nr : Nat) : (setRoundKeys w nk nr s).keylen = s.keylen := rfl
@[simp] theorem setRoundKeys_W (w : Vector Quad 60) (nk nr : Nat) : (setRoundKeys w nk nr s).W = w := rfl
@[simp] theorem setRoundKeys_gfres (w : Vector Quad 60) (nk nr : Nat) : (setRoundKeys w nk nr s).gfres = s.gfres := rfl
@[simp] theorem setRoundKeys_status (w : Vector Quad 60) (nk nr : Nat) : (setRoundKeys w nk nr s).status = { s.status with valid := true, nk := BitVec.ofNat 4 nk, nr := BitVec.ofNat 4 nr } := rfl
@[simp] theorem setRoundKeys_pend (w : Vector Quad 60) (nk nr : Nat) : (setRoundKeys w nk nr s).pend = s.pend := rfl
@[simp] theorem setRoundKeys_inputs (w : Vector Quad 60) (nk nr : Nat) : (setRoundKeys w nk nr s).inputs = s.inputs := rfl
@[simp] theorem setRoundKeys_reply (w : Vector Quad 60) (nk nr : Nat) : (setRoundKeys w nk nr s).reply = s.reply := rfl
@[simp] theorem setRoundKeys_draws (w : Vector Quad 60) (nk nr : Nat) : (setRoundKeys w nk nr s).draws = s.draws := rfl

@[simp] theorem platformReset_inputs : (platformReset s).inputs = s.inputs := rfl
@[simp] theorem platformReset_reply : (platformReset s).reply = s.reply := rfl
@[simp] theorem platformReset_draws : (platformReset s).draws = s.draws := rfl
@[simp] theorem platformReset_status : (platformReset s).status = Status.reset := rfl
@[simp] theorem platformReset_pend : (platformReset s).pend = none := rfl
@[simp] theorem platformReset_keylen : (platformReset s).keylen = 0 := rfl
@[simp] theorem platformReset_gfres : (platformReset s).gfres = 0 := rfl
@[simp] theorem platformReset_W : (platformReset s).W = Vector.replicate 60 quadZero := rfl

end Sys2Proof.Machine
end

