-- ==== Sys2Proof/Laws/Words.lean ====
section
/-! SUPPORT. The four-byte word and the block state: read after build, build after read, extensionality, and the register
value of four bytes. -/

namespace Sys2Proof.Machine

@[simp] theorem quadGet_quadOf (f : Fin 4 → Byte) (i : Fin 4) : quadGet (quadOf f) i = f i := by
  match i with
  | 0 => rfl
  | 1 => rfl
  | 2 => rfl
  | 3 => rfl

@[simp] theorem quadOf_quadGet (w : Quad) : (quadOf fun i => quadGet w i) = w := rfl

theorem quad_ext (v w : Quad) (h : ∀ i, quadGet v i = quadGet w i) : v = w := by
  rw [← quadOf_quadGet v, ← quadOf_quadGet w]
  exact congrArg quadOf (funext h)

@[simp] theorem quadGet_quadMap (f : Byte → Byte) (w : Quad) (i : Fin 4) :
    quadGet (quadMap f w) i = f (quadGet w i) := by
  match i with
  | 0 => rfl
  | 1 => rfl
  | 2 => rfl
  | 3 => rfl

@[simp] theorem quadGet_quadXor (v w : Quad) (i : Fin 4) :
    quadGet (quadXor v w) i = quadGet v i ^^^ quadGet w i := by
  match i with
  | 0 => rfl
  | 1 => rfl
  | 2 => rfl
  | 3 => rfl

@[simp] theorem blockGet_blockOf (f : Fin 4 → Fin 4 → Byte) (r c : Fin 4) : blockGet (blockOf f) r c = f r c := by
  match c with
  | 0 => exact quadGet_quadOf (f · 0) r
  | 1 => exact quadGet_quadOf (f · 1) r
  | 2 => exact quadGet_quadOf (f · 2) r
  | 3 => exact quadGet_quadOf (f · 3) r

@[simp] theorem blockOf_blockGet (T : Block) : (blockOf fun r c => blockGet T r c) = T := rfl

theorem block_ext (T U : Block) (h : ∀ r c, blockGet T r c = blockGet U r c) : T = U := by
  rw [← blockOf_blockGet T, ← blockOf_blockGet U]
  exact congrArg blockOf (funext fun r => funext fun c => h r c)

@[simp] theorem blockColumn_blockSetColumn (T : Block) (c c' : Fin 4) (q : Quad) :
    blockColumn (blockSetColumn T c q) c' = if c' = c then q else blockColumn T c' := by
  fin_cases c <;> fin_cases c' <;> rfl

@[simp] theorem blockColumn_blockMapColumns (f : Quad → Quad) (T : Block) (c : Fin 4) :
    blockColumn (blockMapColumns f T) c = f (blockColumn T c) := by
  match c with
  | 0 => rfl
  | 1 => rfl
  | 2 => rfl
  | 3 => rfl

@[simp] theorem bytesToState_stateToBytes (T : Block) : bytesToState (stateToBytes T) = T := rfl

/-- Bit `i` of the register value of four bytes: byte 0 holds bits 31:24 (20_memory.md R60). -/
theorem quadToWord_getLsbD (w : Quad) (i : Nat) : (quadToWord w).getLsbD i =
    if i < 8 then w.b3.getLsbD i else if i < 16 then w.b2.getLsbD (i - 8)
    else if i < 24 then w.b1.getLsbD (i - 16) else w.b0.getLsbD (i - 24) := by
  change ((w.b0 ++ w.b1 ++ w.b2 ++ w.b3 : BitVec (8 + 8 + 8 + 8))).getLsbD i = _
  have h8 : i - 8 - 8 = i - 16 := by omega
  have h16 : i - 16 - 8 = i - 24 := by omega
  simp only [BitVec.getLsbD_append, h8, h16]
  grind

theorem quadToWord_byte (w : Quad) :
    (quadToWord w).extractLsb' 24 8 = w.b0 ∧ (quadToWord w).extractLsb' 16 8 = w.b1 ∧
    (quadToWord w).extractLsb' 8 8 = w.b2 ∧ (quadToWord w).extractLsb' 0 8 = w.b3 := by
  refine ⟨?_, ?_, ?_, ?_⟩ <;>
    (apply BitVec.eq_of_getLsbD_eq; intro i hi
     simp [quadToWord_getLsbD, hi]; try grind)

/-- Byte `b` of the register value of four bytes. -/
theorem quadToWord_extract (w : Quad) (b : Fin 4) :
    (quadToWord w).extractLsb' (24 - 8 * b.val) 8 = quadGet w b := by
  obtain ⟨h0, h1, h2, h3⟩ := quadToWord_byte w
  match b with
  | 0 => exact h0
  | 1 => exact h1
  | 2 => exact h2
  | 3 => exact h3

/-- Byte `b` of the word a register value stands for. -/
theorem quadGet_quadOfWord (v : Word) (b : Fin 4) :
    quadGet (quadOfWord v) b = v.extractLsb' (24 - 8 * b.val) 8 := by
  match b with
  | 0 => rfl
  | 1 => rfl
  | 2 => rfl
  | 3 => rfl

@[simp] theorem quadOfWord_quadToWord (w : Quad) : quadOfWord (quadToWord w) = w := by
  obtain ⟨h0, h1, h2, h3⟩ := quadToWord_byte w
  simp only [quadOfWord, h0, h1, h2, h3]

@[simp] theorem quadToWord_quadOfWord (v : Word) : quadToWord (quadOfWord v) = v := by
  apply BitVec.eq_of_getLsbD_eq
  intro i hi
  simp [quadToWord_getLsbD, quadOfWord]
  grind

end Sys2Proof.Machine
end

