-- ==== Sys2Proof/Laws/Commands.lean ====
section
/-! SUPPORT. Once for each shared operation, everything it can do: raising an error, running a command, offering a word, a
host access, the core's turn, and a step. Proofs cite these and unfold nothing. -/

namespace Sys2Proof.Machine

/-- What a command does at completion when its checks pass. -/
def effectOf : Instr → State → State
  | .nop, s => s
  | .kexp, s => expandKey s
  | .enc, s => setBlock (encryptBlock (roundKey s) (roundCount s) s.S) s
  | .dec, s => setBlock (decryptBlock (roundKey s) (roundCount s) s.S) s
  | .ark rnd, s => setBlock (addRoundKey s.S (roundKey s rnd)) s
  | .sb, s => setBlock (subBytes s.S) s
  | .isb, s => setBlock (invSubBytes s.S) s
  | .sr, s => setBlock (shiftRows s.S) s
  | .isr, s => setBlock (invShiftRows s.S) s
  | .mc, s => setBlock (mixColumns s.S) s
  | .imc, s => setBlock (invMixColumns s.S) s
  | .xtime a, s => setGfres (xtime a) s
  | .gmul a b, s => setGfres (gmul a b) s
  | .sbox a, s => setGfres (sbox a) s
  | .isbox a, s => setGfres (isbox a) s

/-- Every meaning is one shape: the command's checks, then its effect. -/
theorem exec_eq (i : Instr) (s : State) : exec i s = runCommand (acceptanceError i s) (effectOf i) s := by
  cases i <;> rfl

theorem runCommand_passed (f : State → State) (s : State) : runCommand none f s = .next (retire (f s)) := rfl

theorem runCommand_failed (e : ErrorName) (f : State → State) (s : State) :
    runCommand (some e) f s = .next (retire (raise e s)) := rfl

/-- Every command answers a next state. -/
theorem exec_next (i : Instr) (s : State) : ∃ t, exec i s = .next t := by
  rw [exec_eq]
  cases acceptanceError i s with
  | none => exact ⟨_, rfl⟩
  | some e => exact ⟨_, rfl⟩

/-- What a raised error leaves unchanged (60_exceptions.md R203). -/
theorem raise_frame (e : ErrorName) (s : State) :
    (raise e s).S = s.S ∧ (raise e s).K = s.K ∧ (raise e s).keylen = s.keylen ∧ (raise e s).gfres = s.gfres ∧
    (raise e s).pend = s.pend ∧ (raise e s).inputs = s.inputs ∧ (raise e s).reply = s.reply ∧
    (raise e s).draws = s.draws ∧ (raise e s).status.busy = s.status.busy ∧
    (raise e s).status.err = if s.status.err = 0 then errorCode e else s.status.err := by
  cases e <;> simp [raise]
  rfl

/-- What a command's effect leaves unchanged, and that only KEXP touches the RoundKeySet. -/
theorem effectOf_frame (i : Instr) (s : State) :
    (effectOf i s).K = s.K ∧ (effectOf i s).keylen = s.keylen ∧ (effectOf i s).pend = s.pend ∧
    (effectOf i s).inputs = s.inputs ∧ (effectOf i s).reply = s.reply ∧ (effectOf i s).draws = s.draws ∧
    (effectOf i s).status.busy = s.status.busy ∧ (effectOf i s).status.err = s.status.err ∧
    (i ≠ .kexp → (effectOf i s).W = s.W ∧ (effectOf i s).status = s.status) := by
  cases i <;> simp [effectOf, expandKey]

/-- A meaning cannot see whether its command is pending: PEND and BUSY are overwritten and nothing else reads them. -/
theorem exec_accept (i : Instr) (w : Word) (s : State) (h : acceptanceError i s = none) :
    exec i (accept w s) = exec i s := by
  have h' : acceptanceError i (accept w s) = none := by cases i <;> exact h
  rw [exec_eq, exec_eq, h, h']
  cases i <;> rfl

/-- Everything an offered word can do (45_control.md R190). -/
theorem offer_cases (w : Word) (s : State) :
    (s.status.busy = true ∧ offer w s = raise .busy s) ∨
    (s.status.busy = false ∧ s.status.err ≠ 0 ∧ offer w s = s) ∨
    (s.status.busy = false ∧ s.status.err = 0 ∧
      ((∃ why, decode w = .illegal why ∧ offer w s = raise .illegalCommand s) ∨
       (∃ i e, decode w = .command i ∧ acceptanceError i s = some e ∧ offer w s = raise e s) ∨
       (∃ i, decode w = .command i ∧ acceptanceError i s = none ∧ offer w s = accept w s))) := by
  by_cases hb : s.status.busy = true
  · exact .inl ⟨hb, by simp [offer, hb]⟩
  · by_cases he : s.status.err = 0
    · refine .inr (.inr ⟨by simpa using hb, he, ?_⟩)
      cases hd : decode w with
      | illegal why => exact .inl ⟨why, rfl, by simp [offer, hb, he, hd]⟩
      | command i =>
        cases ha : acceptanceError i s with
        | none => exact .inr (.inr ⟨i, rfl, ha, by simp [offer, hb, he, hd, ha]⟩)
        | some e => exact .inr (.inl ⟨i, e, rfl, ha, by simp [offer, hb, he, hd, ha]⟩)
    · exact .inr (.inl ⟨by simpa using hb, he, by rw [offer, if_neg hb, if_pos he]⟩)

/-- Which error a command's own check can raise (60_exceptions.md R200). -/
theorem acceptanceError_cases {i : Instr} {s : State} {e : ErrorName} (h : acceptanceError i s = some e) :
    (i = .kexp ∧ e = .invalidKeyLength ∧ legalKeyLength s.keylen = false) ∨
    ((i = .enc ∨ i = .dec ∨ ∃ r, i = .ark r) ∧ e = .noRoundKeys ∧ s.status.valid = false) ∨
    (∃ r, i = .ark r ∧ e = .roundOutOfRange ∧ s.status.valid = true ∧ roundCount s < r) := by
  cases i <;> simp only [acceptanceError, keyLengthError, roundKeysError, roundIndexError] at h <;>
    grind

/-- Everything the core's turn can do (45_control.md R193). -/
theorem coreStep_cases (s : State) :
    (s.pend = none ∧ coreStep s = .next s) ∨
    (∃ w i, s.pend = some w ∧ decode w = .command i ∧ coreStep s = exec i s) ∨
    (∃ w why, s.pend = some w ∧ decode w = .illegal why ∧
      coreStep s = .next (retire (raise .illegalCommand s))) := by
  cases hp : s.pend with
  | none => exact .inl ⟨rfl, by simp [coreStep, hp]⟩
  | some w =>
    cases hd : decode w with
    | command i => exact .inr (.inl ⟨w, i, rfl, hd, by simp [coreStep, hp, hd]⟩)
    | illegal why => exact .inr (.inr ⟨w, why, rfl, hd, by simp [coreStep, hp, hd, runCommand]⟩)

/-- Everything a served host access can do (20_memory.md R51). -/
theorem hostStep_cases {a : Access} {s t : State} (h : hostStep a s = .next t) :
    (∃ off, a = .read .w32 off ∧ off.toNat % 4 = 0 ∧ t = hostRead (regAt off) s) ∨
    (∃ off v, a = .write .w32 off v ∧ off.toNat % 4 = 0 ∧ t = hostWrite (regAt off) v s) := by
  cases a with
  | read width off =>
    by_cases hs : served width off = true
    · have hs' := hs
      simp [served] at hs'
      obtain ⟨rfl, h4⟩ := hs'
      simp [hostStep, hs] at h
      exact .inl ⟨off, rfl, h4, h.symm⟩
    · simp [hostStep, hs] at h
  | write width off v =>
    by_cases hs : served width off = true
    · have hs' := hs
      simp [served] at hs'
      obtain ⟨rfl, h4⟩ := hs'
      simp [hostStep, hs] at h
      exact .inr ⟨off, v, rfl, h4, h.symm⟩
    · simp [hostStep, hs] at h

/-- A host read changes nothing but the bus's answer and the count of draws (20_memory.md R63). -/
theorem hostRead_frame (r : Reg) (s : State) :
    hostRead r s = { s with reply := (hostRead r s).reply, draws := (hostRead r s).draws } := by
  unfold hostRead
  split <;> rfl

/-- Everything a step can do (10_state.md R20). -/
theorem step_cases {s t : State} (h : step s = .next t) :
    (s.inputs = [] ∧ coreStep s = .next t) ∨
    (∃ rest, s.inputs = .core :: rest ∧ coreStep (setInputs rest s) = .next t) ∨
    (∃ a rest, s.inputs = .host a :: rest ∧ hostStep a (setInputs rest s) = .next t) ∨
    (∃ rest, s.inputs = .reset :: rest ∧ t = platformReset (setInputs rest s)) := by
  unfold step agentStep at h
  split at h
  · exact .inl ⟨‹_›, h⟩
  · exact .inr (.inr (.inl ⟨_, _, ‹_›, h⟩))
  · exact .inr (.inl ⟨_, ‹_›, h⟩)
  · rename_i rest hr
    simp only [Host.Outcome.next.injEq] at h
    exact .inr (.inr (.inr ⟨rest, hr, h.symm⟩))

end Sys2Proof.Machine
end

