-- ==== Sys2Proof/Laws/Encoding.lean ====
section
/-! SUPPORT. The command word by its bits and fields, and the decoder's answer on a word put together from fields. -/

namespace Sys2Proof

/-- Every bit of a command word (30_encoding.md R80). -/
theorem commandWord_getLsbD (op : Byte) (rnd : BitVec 4) (a b : Byte) (i : Nat) :
    (commandWord op rnd a b).getLsbD i =
      if i < 8 then op.getLsbD i else if i < 12 then rnd.getLsbD (i - 8) else if i < 16 then false
      else if i < 24 then a.getLsbD (i - 16) else b.getLsbD (i - 24) := by
  have hop : 8 ≤ i → op.getLsbD i = false := fun h => BitVec.getLsbD_of_ge _ _ h
  have hrnd : 4 ≤ i - 8 → rnd.getLsbD (i - 8) = false := fun h => BitVec.getLsbD_of_ge _ _ h
  have ha : 8 ≤ i - 16 → a.getLsbD (i - 16) = false := fun h => BitVec.getLsbD_of_ge _ _ h
  have hb : 8 ≤ i - 24 → b.getLsbD (i - 24) = false := fun h => BitVec.getLsbD_of_ge _ _ h
  simp only [commandWord, BitVec.getLsbD_or, BitVec.getLsbD_shiftLeft, BitVec.getLsbD_setWidth]
  grind

@[simp] theorem opField_commandWord (op : Byte) (rnd : BitVec 4) (a b : Byte) :
    opField (commandWord op rnd a b) = op := by
  apply BitVec.eq_of_getLsbD_eq; intro i hi
  simp [opField, commandWord_getLsbD, hi]

@[simp] theorem rndField_commandWord (op : Byte) (rnd : BitVec 4) (a b : Byte) :
    rndField (commandWord op rnd a b) = rnd := by
  apply BitVec.eq_of_getLsbD_eq; intro i hi
  simp [rndField, commandWord_getLsbD, hi]; grind

@[simp] theorem rsvField_commandWord (op : Byte) (rnd : BitVec 4) (a b : Byte) :
    rsvField (commandWord op rnd a b) = 0 := by
  apply BitVec.eq_of_getLsbD_eq; intro i hi
  simp [rsvField, commandWord_getLsbD, hi]; grind

@[simp] theorem aField_commandWord (op : Byte) (rnd : BitVec 4) (a b : Byte) :
    aField (commandWord op rnd a b) = a := by
  apply BitVec.eq_of_getLsbD_eq; intro i hi
  simp [aField, commandWord_getLsbD, hi]; grind

@[simp] theorem bField_commandWord (op : Byte) (rnd : BitVec 4) (a b : Byte) :
    bField (commandWord op rnd a b) = b := by
  apply BitVec.eq_of_getLsbD_eq; intro i hi
  simp [bField, commandWord_getLsbD, hi]; grind

/-- A word whose reserved field is 0 is put together again from its fields. -/
theorem commandWord_fields (w : Word) (h : rsvField w = 0) :
    commandWord (opField w) (rndField w) (aField w) (bField w) = w := by
  apply BitVec.eq_of_getLsbD_eq; intro i hi
  have hr : ∀ j, j < 4 → w.getLsbD (12 + j) = false := by
    intro j hj
    have := congrArg (BitVec.getLsbD · j) h
    simpa [rsvField, hj] using this
  have := hr (i - 12)
  rw [commandWord_getLsbD]
  simp only [opField, rndField, aField, bField, BitVec.getLsbD_extractLsb']
  grind

/-- The decoder sees exactly the fields a command word was put together from. -/
theorem decode_commandWord (op : Byte) (rnd : BitVec 4) (a b : Byte) :
    decode (commandWord op rnd a b) = decodeFields op rnd a b := by
  simp [decode]

theorem commandIf_eq_command {c : Bool} {i j : Instr} : commandIf c i = .command j ↔ c = true ∧ i = j := by
  unfold commandIf; split <;> simp [*]

/-- One line of the decoder's `case`, taken or passed. -/
theorem ite_eq_command {p : Prop} [Decidable p] {x y : Decoded} {i : Instr}
    (h : (if p then x else y) = .command i) : (p ∧ x = .command i) ∨ (¬p ∧ y = .command i) := by
  by_cases hp : p
  · exact .inl ⟨hp, by rwa [if_pos hp] at h⟩
  · exact .inr ⟨hp, by rwa [if_neg hp] at h⟩

end Sys2Proof
end

