-- ==== Sys2Proof/Laws/Field.lean ====
section
/-! SUPPORT. The field operations over XOR: xtime, the constant multiples and the column matrices are linear, so a fact
about a column reduces to facts about one byte. -/

namespace Sys2Proof.Machine

/-- Bit `i` of 2·b (40_galois_field.md R101). -/
theorem xtime_getLsbD (b : Byte) (i : Nat) (hi : i < 8) :
    (xtime b).getLsbD i =
      ((decide (1 ≤ i) && b.getLsbD (i - 1)) ^^ (b.getLsbD 7 && (0x1B : Byte).getLsbD i)) := by
  unfold xtime
  cases h : b.getLsbD 7 <;> interval_cases i <;> simp_all

theorem xtime_xor (a b : Byte) : xtime (a ^^^ b) = xtime a ^^^ xtime b := by
  apply BitVec.eq_of_getLsbD_eq
  intro i hi
  simp only [BitVec.getLsbD_xor, xtime_getLsbD _ _ hi]
  generalize a.getLsbD (i - 1) = x, b.getLsbD (i - 1) = y, (0x1B : Byte).getLsbD i = z
  cases a.getLsbD 7 <;> cases b.getLsbD 7 <;> cases decide (1 ≤ i) <;> revert x y z <;> decide

theorem times2_xor (a b : Byte) : times2 (a ^^^ b) = times2 a ^^^ times2 b := xtime_xor a b

theorem times3_xor (a b : Byte) : times3 (a ^^^ b) = times3 a ^^^ times3 b := by
  simp only [times3, xtime_xor]; ac_rfl

theorem times9_xor (a b : Byte) : times9 (a ^^^ b) = times9 a ^^^ times9 b := by
  simp only [times9, xtime_xor]; ac_rfl

theorem times11_xor (a b : Byte) : times11 (a ^^^ b) = times11 a ^^^ times11 b := by
  simp only [times11, xtime_xor]; ac_rfl

theorem times13_xor (a b : Byte) : times13 (a ^^^ b) = times13 a ^^^ times13 b := by
  simp only [times13, xtime_xor]; ac_rfl

theorem times14_xor (a b : Byte) : times14 (a ^^^ b) = times14 a ^^^ times14 b := by
  simp only [times14, xtime_xor]; ac_rfl

theorem mixColumn_xor (v w : Quad) : mixColumn (quadXor v w) = quadXor (mixColumn v) (mixColumn w) := by
  simp only [mixColumn, quadXor, times2_xor, times3_xor, Quad.mk.injEq]
  exact ⟨by ac_rfl, by ac_rfl, by ac_rfl, by ac_rfl⟩

theorem invMixColumn_xor (v w : Quad) :
    invMixColumn (quadXor v w) = quadXor (invMixColumn v) (invMixColumn w) := by
  simp only [invMixColumn, quadXor, times9_xor, times11_xor, times13_xor, times14_xor, Quad.mk.injEq]
  exact ⟨by ac_rfl, by ac_rfl, by ac_rfl, by ac_rfl⟩

/-- A column is the sum of its four one-byte columns. -/
theorem quad_split (a : Quad) :
    a = quadXor (quadXor ⟨a.b0, 0, 0, 0⟩ ⟨0, a.b1, 0, 0⟩) (quadXor ⟨0, 0, a.b2, 0⟩ ⟨0, 0, 0, a.b3⟩) := by
  simp [quadXor]

/-- AddRoundKey adds column by column. -/
theorem addRoundKey_eq_quadXor (T k : Block) :
    addRoundKey T k = ⟨quadXor T.c0 k.c0, quadXor T.c1 k.c1, quadXor T.c2 k.c2, quadXor T.c3 k.c3⟩ := rfl

/-- One turn of gmul's loop taken off the accumulator (40_galois_field.md R102). -/
theorem gmulLoop_acc (b : Byte) (n i : Nat) (p r : Byte) : gmulLoop b n i p r = r ^^^ gmulLoop b n i p 0 := by
  induction n generalizing i p r with
  | zero => simp [gmulLoop]
  | succ n ih =>
    rw [gmulLoop, ih, gmulLoop, ih (r := if b.getLsbD i then 0 ^^^ p else 0)]
    split <;> simp [BitVec.xor_assoc]

end Sys2Proof.Machine
end

