-- ==== Sys2Proof/Laws/KeySchedule.lean ====
section
/-! SUPPORT. The expansion loop: how long its result is, that it keeps the words it starts from, and what each new word is. -/

namespace Sys2Proof.Machine

theorem expandLoop_length (nk n i : Nat) (w : List Quad) : (expandLoop nk n i w).length = w.length + n := by
  induction n generalizing i w with
  | zero => rfl
  | succ n ih => rw [expandLoop, ih, List.length_append]; simp; omega

theorem expandLoop_old (nk n i : Nat) (w : List Quad) (j : Nat) (hj : j < w.length) :
    (expandLoop nk n i w).getD j quadZero = w.getD j quadZero := by
  induction n generalizing i w with
  | zero => rfl
  | succ n ih =>
    rw [expandLoop, ih _ _ (by simp; omega)]
    simp [List.getD, List.getElem?_append_left hj]

/-- Each word the loop adds follows the recurrence of 42_key_expansion.md R134. -/
theorem expandLoop_new (nk : Nat) (hk : 1 ≤ nk) (n i : Nat) (w : List Quad) (hw : w.length = i) (hi : nk ≤ i)
    (j : Nat) (h1 : i ≤ j) (h2 : j < i + n) :
    (expandLoop nk n i w).getD j quadZero =
      quadXor ((expandLoop nk n i w).getD (j - nk) quadZero)
        (scheduleTemp nk j ((expandLoop nk n i w).getD (j - 1) quadZero)) := by
  induction n generalizing i w with
  | zero => omega
  | succ n ih =>
    rw [expandLoop]
    by_cases hji : j = i
    · subst hji
      rw [expandLoop_old _ _ _ _ j (by simp; omega), expandLoop_old _ _ _ _ (j - nk) (by simp; omega),
        expandLoop_old _ _ _ _ (j - 1) (by simp; omega)]
      subst hw
      simp only [List.getD_eq_getElem?_getD]
      rw [List.getElem?_append_right (by omega), List.getElem?_append_left (by omega),
        List.getElem?_append_left (by omega)]
      simp
    · exact ih (i + 1) _ (by simp; omega) (by omega) (by omega) (by omega)

/-- Byte `j` of the master key, read through its words (42_key_expansion.md R131). -/
theorem masterKey_byte (s : State) (nk : Nat) (j : Fin 32) (h : j.val < 4 * nk) :
    quadGet ((masterKey s nk).getD (j.val / 4) quadZero) (Fin.ofNat 4 j.val) = keyByte s j := by
  simp only [masterKey, keyByte, List.getD]
  rw [List.getElem?_take_of_lt (by omega)]
  simp only [Vector.getElem?_toList]
  rw [Vector.getElem?_eq_getElem (by omega)]
  rfl

end Sys2Proof.Machine
end

