-- ==== Sys2Proof/Laws/PerInstr.lean ====
section
/-! SUPPORT. A property of every command as syntax, one lemma per constructor: its word matches its own row of the opcode
map (30_encoding.md R82, R83). -/

namespace Sys2Proof.Laws

/-- The command's row is a row of the opcode map, and its encoding spells that row: `enc(i) & mask = match`. -/
def TableRow.Statement (i : Instr) : Prop :=
  i.row ∈ opcodeTable ∧ i.row.spells (encode i) = true

/-- A command word matches a row if it does bit by bit. -/
theorem commandWord_spells (row : OpcodeRow) (op : Byte) (rnd : BitVec 4) (a b : Byte)
    (h : ∀ i, i < 32 →
      ((if i < 8 then op.getLsbD i else if i < 12 then rnd.getLsbD (i - 8) else if i < 16 then false
        else if i < 24 then a.getLsbD (i - 16) else b.getLsbD (i - 24)) && row.mask.getLsbD i) =
      row.pattern.getLsbD i) :
    row.spells (commandWord op rnd a b) = true := by
  refine decide_eq_true (BitVec.eq_of_getLsbD_eq fun i hi => ?_)
  rw [BitVec.getLsbD_and, commandWord_getLsbD]
  exact h i hi

theorem TableRow.nop : TableRow.Statement .nop := ⟨by decide, by decide⟩
theorem TableRow.kexp : TableRow.Statement .kexp := ⟨by decide, by decide⟩
theorem TableRow.enc : TableRow.Statement .enc := ⟨by decide, by decide⟩
theorem TableRow.dec : TableRow.Statement .dec := ⟨by decide, by decide⟩
theorem TableRow.ark (rnd : Nat) : TableRow.Statement (.ark rnd) :=
  ⟨by simp [opcodeTable, Instr.row], commandWord_spells _ _ _ _ _ fun i hi => by
    interval_cases i <;> simp [Instr.row]⟩
theorem TableRow.sb : TableRow.Statement .sb := ⟨by decide, by decide⟩
theorem TableRow.isb : TableRow.Statement .isb := ⟨by decide, by decide⟩
theorem TableRow.sr : TableRow.Statement .sr := ⟨by decide, by decide⟩
theorem TableRow.isr : TableRow.Statement .isr := ⟨by decide, by decide⟩
theorem TableRow.mc : TableRow.Statement .mc := ⟨by decide, by decide⟩
theorem TableRow.imc : TableRow.Statement .imc := ⟨by decide, by decide⟩
theorem TableRow.xtime (a : Byte) : TableRow.Statement (.xtime a) :=
  ⟨by simp [opcodeTable, Instr.row], commandWord_spells _ _ _ _ _ fun i hi => by
    interval_cases i <;> simp [Instr.row]⟩
theorem TableRow.gmul (a b : Byte) : TableRow.Statement (.gmul a b) :=
  ⟨by simp [opcodeTable, Instr.row], commandWord_spells _ _ _ _ _ fun i hi => by
    interval_cases i <;> simp [Instr.row]⟩
theorem TableRow.sbox (a : Byte) : TableRow.Statement (.sbox a) :=
  ⟨by simp [opcodeTable, Instr.row], commandWord_spells _ _ _ _ _ fun i hi => by
    interval_cases i <;> simp [Instr.row]⟩
theorem TableRow.isbox (a : Byte) : TableRow.Statement (.isbox a) :=
  ⟨by simp [opcodeTable, Instr.row], commandWord_spells _ _ _ _ _ fun i hi => by
    interval_cases i <;> simp [Instr.row]⟩

end Sys2Proof.Laws
end

