-- ==== Sys2Proof/Laws/Rounds.lean ====
section
/-! SUPPORT. Commands run one after another, the checks a state passes, and the rounds of ENC taken from the far end. -/

namespace Sys2Proof.Machine

/-- A list of commands runs as its parts do. Every command answers a next state, so the first part always ends. -/
theorem execAll_append (is js : List Instr) (s : State) :
    ∃ t, execAll is s = .next t ∧ execAll (is ++ js) s = execAll js t := by
  induction is generalizing s with
  | nil => exact ⟨s, rfl, rfl⟩
  | cons i is ih =>
    obtain ⟨u, hu⟩ := exec_next i s
    obtain ⟨t, h1, h2⟩ := ih u
    exact ⟨t, by rw [execAll, hu]; exact h1, by rw [List.cons_append, execAll, hu]; exact h2⟩

/-- A command's check reads KEYLEN, VALID and NR alone. -/
theorem acceptanceError_congr (i : Instr) (s t : State) (hk : t.keylen = s.keylen)
    (hv : t.status.valid = s.status.valid) (hn : t.status.nr = s.status.nr) :
    acceptanceError i t = acceptanceError i s := by
  have h1 : roundKeysError t = roundKeysError s := by rw [roundKeysError, roundKeysError, hv]
  cases i <;> first | rfl | exact h1 | skip
  · rw [acceptanceError, acceptanceError, keyLengthError, keyLengthError, hk]
  · rw [acceptanceError, acceptanceError, roundIndexError, roundIndexError, h1, roundCount, roundCount, hn]

/-- The last of n + 1 middle rounds of ENC, taken off. -/
theorem encRounds_succ_last (rk : Nat → Block) (n r : Nat) (T : Block) :
    encRounds rk (n + 1) r T = encRound (rk (r + n)) (encRounds rk n r T) := by
  induction n generalizing r T with
  | zero => rfl
  | succ n ih => rw [encRounds, ih]; simp [encRounds, Nat.add_assoc, Nat.add_comm 1]

end Sys2Proof.Machine
end

