-- ==== Sys2Proof/Laws/Window.lean ====
section
/-! SUPPORT. The register window: which register each offset names, the two served accesses, the write that a pending
command stops, and STATUS bit by bit. -/

namespace Sys2Proof.Machine

@[simp] theorem regAt_cmd : regAt 0#12 = .cmd := rfl
@[simp] theorem regAt_status : regAt 4#12 = .status := rfl
@[simp] theorem regAt_keylen : regAt 8#12 = .keylen := rfl
@[simp] theorem regAt_gfres : regAt 12#12 = .gfres := rfl

theorem regAt_state (c : Fin 4) : regAt (BitVec.ofNat 12 (0x010 + 4 * c.val)) = .state c := by
  revert c; decide

theorem regAt_key (j : Fin 8) : regAt (BitVec.ofNat 12 (0x020 + 4 * j.val)) = .key j := by
  revert j; decide

theorem regAt_rkw (i : Fin 60) : regAt (BitVec.ofNat 12 (0x100 + 4 * i.val)) = .rkw i := by
  revert i; decide

/-- The register map read the other way: where each register stands (20_memory.md R52). -/
theorem regAt_cases (off : BitVec 12) (h4 : off.toNat % 4 = 0) :
    (off = 0x000 ∧ regAt off = .cmd) ∨ (off = 0x004 ∧ regAt off = .status) ∨
    (off = 0x008 ∧ regAt off = .keylen) ∨ (off = 0x00C ∧ regAt off = .gfres) ∨
    (0x010 ≤ off.toNat ∧ off.toNat < 0x020 ∧ ∃ c, regAt off = .state c) ∨
    (0x020 ≤ off.toNat ∧ off.toNat < 0x040 ∧ ∃ j, regAt off = .key j) ∨
    (0x100 ≤ off.toNat ∧ off.toNat < 0x1F0 ∧ ∃ i, regAt off = .rkw i) ∨
    (((0x040 ≤ off.toNat ∧ off.toNat < 0x100) ∨ 0x1F0 ≤ off.toNat) ∧ regAt off = .reserved) := by
  unfold regAt
  simp only
  split_ifs with h0 h1 h2 h3 hs hk hw
  · exact .inl ⟨BitVec.eq_of_toNat_eq (by simpa using h0), rfl⟩
  · exact .inr (.inl ⟨BitVec.eq_of_toNat_eq (by simpa using h1), rfl⟩)
  · exact .inr (.inr (.inl ⟨BitVec.eq_of_toNat_eq (by simpa using h2), rfl⟩))
  · exact .inr (.inr (.inr (.inl ⟨BitVec.eq_of_toNat_eq (by simpa using h3), rfl⟩)))
  · exact .inr (.inr (.inr (.inr (.inl ⟨hs.1, hs.2, _, rfl⟩))))
  · exact .inr (.inr (.inr (.inr (.inr (.inl ⟨hk.1, hk.2, _, rfl⟩)))))
  · exact .inr (.inr (.inr (.inr (.inr (.inr (.inl ⟨hw.1, hw.2, _, rfl⟩))))))
  · exact .inr (.inr (.inr (.inr (.inr (.inr (.inr ⟨by omega, rfl⟩))))))

theorem hostStep_read (off : BitVec 12) (s : State) (h4 : off.toNat % 4 = 0) :
    hostStep (.read .w32 off) s = .next (hostRead (regAt off) s) := by
  simp [hostStep, served, h4]

theorem hostStep_write (off : BitVec 12) (v : Word) (s : State) (h4 : off.toNat % 4 = 0) :
    hostStep (.write .w32 off v) s = .next (hostWrite (regAt off) v s) := by
  simp [hostStep, served, h4]

/-- A read that is exact (20_memory.md R61): the register's value, and no other change. -/
theorem hostRead_exact (r : Reg) (s : State) (h : s.status.busy = false ∨ drawnWhileBusy r = false) :
    hostRead r s = { s with reply := .data (readReg s r) } := by
  rw [hostRead, if_neg (by rcases h with h | h <;> simp [h])]; rfl

/-- A read that is a draw (20_memory.md R61): the next free value, and no other change. -/
theorem hostRead_draw (r : Reg) (s : State) (hb : s.status.busy = true) (hr : drawnWhileBusy r = true) :
    hostRead r s = { s with reply := .data (Config.busyRead s.draws), draws := s.draws + 1 } := by
  rw [hostRead, if_pos ⟨hb, hr⟩]; rfl

theorem offer_busy (w : Word) (s : State) (hb : s.status.busy = true) : offer w s = raise .busy s := by
  rw [offer, if_pos hb]

theorem offer_blocked (w : Word) (s : State) (hb : s.status.busy = false) (he : s.status.err ≠ 0) :
    offer w s = s := by
  rw [offer, hb, if_neg (by decide), if_pos he]

theorem writeUnlessBusy_idle (f : State → State) (s : State) (hb : s.status.busy = false) :
    writeUnlessBusy f s = f s := by
  rw [writeUnlessBusy, hb, if_neg (by decide)]

theorem writeUnlessBusy_busy (f : State → State) (s : State) (hb : s.status.busy = true) :
    writeUnlessBusy f s = raise .busy s := by
  rw [writeUnlessBusy, if_pos hb]

/-- Everything a served host write can do to the core (20_memory.md R52, 70_reset_and_hazards.md R241). -/
theorem writeReg_cases (off : BitVec 12) (v : Word) (s : State) (h4 : off.toNat % 4 = 0) :
    (off = 0x000 ∧ writeReg (regAt off) v s = offer v s) ∨
    (off = 0x004 ∧ v.getLsbD 31 = true ∧ writeReg (regAt off) v s = clearError s) ∨
    (s.status.busy = true ∧ 0x008 ≤ off.toNat ∧ off.toNat < 0x040 ∧ writeReg (regAt off) v s = raise .busy s) ∨
    (s.status.busy = false ∧ off = 0x008 ∧ writeReg (regAt off) v s = setKeylen (v.extractLsb' 0 8) s) ∨
    (s.status.busy = false ∧ 0x010 ≤ off.toNat ∧ off.toNat < 0x020 ∧
      ∃ T, writeReg (regAt off) v s = setBlock T s) ∨
    (s.status.busy = false ∧ 0x020 ≤ off.toNat ∧ off.toNat < 0x040 ∧
      ∃ j, writeReg (regAt off) v s = setKeyWord j (quadOfWord v) s) ∨
    writeReg (regAt off) v s = s := by
  cases hb : s.status.busy <;>
    rcases regAt_cases off h4 with ⟨rfl, h⟩ | ⟨rfl, h⟩ | ⟨rfl, h⟩ | ⟨rfl, h⟩ | ⟨h1, h2, c, h⟩ | ⟨h1, h2, j, h⟩ |
      ⟨h1, h2, i, h⟩ | ⟨h1, h⟩ <;>
    rw [h] <;> cases hv : v.getLsbD 31 <;>
    simp only [writeReg, writeUnlessBusy, hb, hv] <;> simp <;> grind

/-- STATUS bit by bit (10_state.md R28, 20_memory.md R58). -/
theorem statusWord_getLsbD (t : Status) (i : Nat) : (statusWord t).getLsbD i =
    if i = 0 then t.busy else if i = 1 then t.valid else if i < 4 then false
    else if i < 8 then t.err.getLsbD (i - 4) else if i < 12 then t.nk.getLsbD (i - 8)
    else t.nr.getLsbD (i - 12) := by
  change ((0 : BitVec 1) ++ (0 : BitVec 15) ++ t.nr ++ t.nk ++ t.err ++ (0 : BitVec 2) ++ BitVec.ofBool t.valid ++
    BitVec.ofBool t.busy : BitVec (1 + 15 + 4 + 4 + 4 + 2 + 1 + 1)).getLsbD i = _
  have h2 : i - 1 - 1 - 2 = i - 4 := by omega
  have h4 : i - 4 - 4 = i - 8 := by omega
  have h8 : i - 8 - 4 = i - 12 := by omega
  have hnr : 4 ≤ i - 12 → t.nr.getLsbD (i - 12) = false := fun h => BitVec.getLsbD_of_ge _ _ h
  simp only [BitVec.getLsbD_append, BitVec.getLsbD_ofBool, BitVec.getLsbD_zero, h2, h4, h8, BitVec.ofNat_eq_ofNat]
  grind

end Sys2Proof.Machine
end

