-- ==== Sys2Proof/Tests/Slice0.lean ====
section
/-! SUPPORT. The model's own tests. Every expected value is one that spec/95_test_vectors.md or a rule's own example gives;
each test names its source. The second half shows, for every statement of Certificates/Slice0/Obligations.lean that has
hypotheses, states and operands that meet them, at the boundaries of each clause. -/

namespace Sys2Proof.Tests

-- One test after another: checked side by side, the long kernel evaluations each hold a thread and its stack.
set_option Elab.async false

open Sys2Proof Sys2Proof.Machine

/-! ### Small states -/

/-- The block whose STATE0..3 registers hold these words. -/
def blockOfWords (v0 v1 v2 v3 : Word) : Block := ⟨quadOfWord v0, quadOfWord v1, quadOfWord v2, quadOfWord v3⟩

/-- The state after reset with KEYLEN and the first KEY registers written. -/
def withKey (len : Byte) (words : List Word) : State :=
  { State.reset with keylen := len, K := Vector.ofFn fun j => quadOfWord (words.getD j.val 0) }

/-- "Thats my Kung Fu", and the longer keys of 95_test_vectors.md 1.1. -/
def key128 : List Word := [0x54686174, 0x73206D79, 0x204B756E, 0x67204675]
def key192 : List Word := key128 ++ [0x61616161, 0x61616161]
def key256 : List Word := key192 ++ [0x62626262, 0x62626262]

/-- "Two One Nine Two". -/
def plain : Block := blockOfWords 0x54776F20 0x4F6E6520 0x4E696E65 0x2054776F

/-- The bytes 00 01 .. 0F. -/
def counting : Block := blockOfWords 0x00010203 0x04050607 0x08090A0B 0x0C0D0E0F

/-- The state after KEXP of "Thats my Kung Fu". -/
def keyed : State := retire (expandKey (withKey 16 key128))

/-- S after a list of commands run from a state. -/
def blockAfter (is : List Instr) (s : State) : Option Block := (nextOf (execAll is s)).map (·.S)

/-- GFRES after one command from reset. -/
def gfresAfter (i : Instr) : Option Byte := (nextOf (exec i State.reset)).map (·.gfres)

/-- A busy core: NOP is pending. -/
def busyState : State := accept 0x00000000 State.reset

/-- An idle core with a recorded error. -/
def failed : State := recordError .illegalCommand State.reset

/-- The value a host read answers. -/
def readValue (off : BitVec 12) (s : State) : Option Reply := (nextOf (hostStep (.read .w32 off) s)).map (·.reply)

/-- The STATUS word after some host accesses. -/
def statusAfter (as : List Access) (s : State) : Option Word := (nextOf (hostAll as s)).map fun t => statusWord t.status

/-! ### Well-formedness: the only check is ARK's round index (30_encoding.md R81, R86) -/

theorem test_wellFormed_refuses_round_16 : (Instr.ark 16).wellFormed = false := by decide
theorem test_wellFormed_takes_round_15 : (Instr.ark 15).wellFormed = true := by decide

/-! ### Decoding and encoding (95_test_vectors.md section 2) -/

theorem test_decode_control : decode 0x00000000 = .command .nop ∧ decode 0x00000001 = .command .kexp := by decide
theorem test_decode_block : decode 0x00000002 = .command .enc ∧ decode 0x00000003 = .command .dec := by decide
theorem test_decode_ark : decode 0x00000010 = .command (.ark 0) ∧ decode 0x00000A10 = .command (.ark 10) ∧
    decode 0x00000F10 = .command (.ark 15) := by decide
theorem test_decode_bytes : decode 0x00000011 = .command .sb ∧ decode 0x00000012 = .command .isb := by decide
theorem test_decode_rows : decode 0x00000013 = .command .sr ∧ decode 0x00000014 = .command .isr := by decide
theorem test_decode_columns : decode 0x00000015 = .command .mc ∧ decode 0x00000016 = .command .imc := by decide
theorem test_decode_field : decode 0x00FF0020 = .command (.xtime 0xFF) ∧
    decode 0x83570021 = .command (.gmul 0x57 0x83) ∧ decode 0x00000021 = .command (.gmul 0 0) := by decide
theorem test_decode_rom : decode 0x00530022 = .command (.sbox 0x53) ∧
    decode 0x00ED0023 = .command (.isbox 0xED) := by decide
theorem test_decode_illegal :
    ([0x00000100, 0x00001000, 0x00001010, 0x00010010, 0x01000010, 0x01570020, 0x00570120, 0x83570121,
      0x00000004, 0x0000000F, 0x00000017, 0x00000024, 0x000000FF, 0xFFFFFFFF, 0x00000101] : List Word).all
      (fun w => match decode w with | .illegal _ => true | .command _ => false) = true := by decide
theorem test_encode : encode (.ark 10) = 0x00000A10 ∧ encode (.gmul 0x57 0x83) = 0x83570021 ∧
    encode (.sbox 0x53) = 0x00530022 := by decide
theorem test_decodeTableWord : decodeTableWord 32 0x83570021 = some (.gmul 0x57 0x83) ∧
    decodeTableWord 32 0x00001010 = none := by decide

/-! ### Field and ROM commands (95_test_vectors.md 3.5 and 4) -/

theorem test_xtime : gfresAfter (.xtime 0x57) = some 0xAE ∧ gfresAfter (.xtime 0xFF) = some 0xE5 := by decide
theorem test_gmul : gfresAfter (.gmul 0x57 0x83) = some 0xC1 ∧ gfresAfter (.gmul 0xFF 0xFF) = some 0x13 := by decide
theorem test_gmul_loop_order : gmul 0x02 0x87 = 0x15 ∧ gmul 0x53 0xCA = 0x01 := by decide
theorem test_sbox : gfresAfter (.sbox 0x53) = some 0xED ∧ gfresAfter (.sbox 0xFF) = some 0x16 := by decide
theorem test_isbox : gfresAfter (.isbox 0xED) = some 0x53 ∧ gfresAfter (.isbox 0x00) = some 0x52 := by decide
/-- The rows of 0x57 and 0x80 in 95_test_vectors.md 3.3. -/
theorem test_constant_multiples :
    [times2 0x57, times3 0x57, times9 0x57, times11 0x57, times13 0x57, times14 0x57] =
      [0xAE, 0xF9, 0xD9, 0x77, 0x9E, 0x67] ∧
    [times2 0x80, times3 0x80, times9 0x80, times11 0x80, times13 0x80, times14 0x80] =
      [0x1B, 0x9B, 0xEC, 0xF7, 0xDA, 0x41] := by decide

/-! ### Key expansion (95_test_vectors.md 5.1 to 5.4) -/

theorem test_kexp_128_first : keyed.W[4] = quadOfWord 0xE232FCF1 ∧ keyed.W[8] = quadOfWord 0x56082007 := by
  decide +kernel
theorem test_kexp_128_last : roundKey keyed 10 = blockOfWords 0x28FDDEF8 0x6DA4244A 0xCCC0A4FE 0x3B316F26 ∧
    keyed.W[44] = quadZero ∧ statusWord keyed.status = 0x0000A402 := by decide +kernel
theorem test_kexp_192 : roundKey (expandKey (withKey 24 key192)) 12 =
    blockOfWords 0xE5479230 0x211A60D2 0x5CDC1B26 0x496FAECC := by decide +kernel
theorem test_kexp_256 : (expandKey (withKey 32 key256)).W[12] = quadOfWord 0x7EC64B04 ∧
    roundKey (expandKey (withKey 32 key256)) 14 = blockOfWords 0xDF74E407 0x5C1F89A5 0x3BF0928B 0x15642C71 := by
  decide +kernel
/-- 95_test_vectors.md 8.3: a failed KEXP takes the old key set away. -/
theorem test_kexp_failure : statusWord (offer 0x00000001 { keyed with keylen := 18 }).status = 0x00000010 ∧
    (offer 0x00000001 { keyed with keylen := 18 }).W[0] = quadZero := by decide +kernel

/-! ### State operations on 00 01 .. 0F (95_test_vectors.md 6.1) and ARK (6.4) -/

theorem test_sb : blockAfter [.sb] (setBlock counting State.reset) =
    some (blockOfWords 0x637C777B 0xF26B6FC5 0x3001672B 0xFED7AB76) := by decide
theorem test_isb : blockAfter [.isb] (setBlock counting State.reset) =
    some (blockOfWords 0x52096AD5 0x3036A538 0xBF40A39E 0x81F3D7FB) := by decide
theorem test_sr : blockAfter [.sr] (setBlock counting State.reset) =
    some (blockOfWords 0x00050A0F 0x04090E03 0x080D0207 0x0C01060B) := by decide
theorem test_isr : blockAfter [.isr] (setBlock counting State.reset) =
    some (blockOfWords 0x000D0A07 0x04010E0B 0x0805020F 0x0C090603) := by decide
theorem test_mc : blockAfter [.mc] (setBlock counting State.reset) =
    some (blockOfWords 0x02070005 0x06030401 0x0A0F080D 0x0E0B0C09) := by decide
theorem test_imc : blockAfter [.imc] (setBlock counting State.reset) =
    some (blockOfWords 0x0A0F080D 0x0E0B0C09 0x02070005 0x06030401) := by decide
/-- 95_test_vectors.md 6.3, a column that tells every coefficient apart. -/
theorem test_mixColumn : mixColumn (quadOfWord 0xDB135345) = quadOfWord 0x8E4DA1BC ∧
    invMixColumn (quadOfWord 0xF20A225C) = quadOfWord 0xAEC36982 := by decide
theorem test_ark_first : blockAfter [.ark 0] (setBlock plain keyed) =
    some (blockOfWords 0x001F0E54 0x3C4E0859 0x6E221B0B 0x4774311A) := by decide +kernel
theorem test_ark_last : blockAfter [.ark 10] (setBlock plain keyed) =
    some (blockOfWords 0x7C8AB1D8 0x22CA416A 0x82A9CA9B 0x1B651849) := by decide +kernel

/-! ### Known answers (95_test_vectors.md 1.1 and 7.3) -/

theorem test_enc_128 : blockAfter [.enc] (setBlock plain keyed) =
    some (blockOfWords 0x29C3505F 0x571420F6 0x402299B3 0x1A02D73A) := by decide +kernel
theorem test_enc_192 : blockAfter [.kexp, .enc] (setBlock plain (withKey 24 key192)) =
    some (blockOfWords 0x83D07DB6 0x15DA00A8 0xB2D461D6 0x004AF8CB) := by decide +kernel
theorem test_dec_128 : blockAfter [.dec] keyed =
    some (blockOfWords 0x22B9BCC5 0x143D041E 0xF9C88932 0x121591A4) := by decide +kernel
theorem test_dec_256 : blockAfter [.kexp, .dec]
      (setBlock (blockOfWords 0x398DFF4E 0x8BD9BA23 0x351D5178 0xF138F87F) (withKey 32 key256)) =
    some plain := by decide +kernel

/-! ### Control, errors, reset and hazards (95_test_vectors.md section 8) -/

/-- 8.1, lines 1 to 5 and 10: NoRoundKeys, blocking, the data write that is not blocked, the clear, and the priority. -/
theorem test_commands_without_keys :
    statusAfter [.write .w32 0x000 0x00000002] State.reset = some 0x00000020 ∧
    statusAfter [.write .w32 0x000 0x00000002, .write .w32 0x000 0x00000011] State.reset = some 0x00000020 ∧
    statusAfter [.write .w32 0x000 0x00000002, .write .w32 0x004 0x80000000] State.reset = some 0x00000000 ∧
    statusAfter [.write .w32 0x000 0x00000C10] State.reset = some 0x00000020 ∧
    (nextOf (hostAll [.write .w32 0x000 0x00000002, .write .w32 0x010 0x11223344] State.reset)).map (·.S.c0) =
      some (quadOfWord 0x11223344) := by decide
/-- 8.2, lines 1, 3, 6, 7 and 8. -/
theorem test_round_index_range :
    statusAfter [.write .w32 0x000 0x00000A10] keyed = some 0x0000A403 ∧
    statusAfter [.write .w32 0x000 0x00000B10] keyed = some 0x0000A432 ∧
    statusAfter [.write .w32 0x000 0x00000F10, .write .w32 0x004 0x00000000] keyed = some 0x0000A432 ∧
    statusAfter [.write .w32 0x000 0x00000F10, .write .w32 0x004 0xFFFFFFFF] keyed = some 0x0000A402 ∧
    statusAfter [.write .w32 0x000 0x00010010] keyed = some 0x0000A442 := by decide +kernel
/-- 8.4, lines 1 and 4 to 7: writes while busy. -/
theorem test_writes_while_busy :
    statusAfter [.write .w32 0x000 0x00000002, .write .w32 0x010 0x00000000] keyed = some 0x0000A453 ∧
    statusAfter [.write .w32 0x000 0x00000002, .write .w32 0x010 0, .write .w32 0x004 0x80000000] keyed =
      some 0x0000A403 ∧
    (nextOf (hostAll [.write .w32 0x000 0x00000002, .write .w32 0x008 0x00000020] keyed)).map (·.keylen) =
      some 16 := by decide +kernel
/-- 8.4, lines 2, 3: a busy read of STATE0 is a draw, one of KEY0 is exact. -/
theorem test_reads_while_busy :
    readValue 0x010 (accept 0x00000002 keyed) = some (.data (Config.busyRead 0)) ∧
    readValue 0x020 (accept 0x00000002 keyed) = some (.data 0x54686174) := ⟨rfl, by decide +kernel⟩
/-- 8.5: reset during a pending command. -/
theorem test_reset_while_pending :
    (nextOf (step { accept 0x00000002 keyed with inputs := [.reset] })).map
      (fun t => (statusWord t.status, t.pend, t.W[0], t.keylen)) = some (0x00000000, none, quadZero, 0x00) := by
  decide +kernel
/-- 8.6: reserved and read-only locations. -/
theorem test_reserved_and_read_only :
    readValue 0x000 keyed = some (.data 0x00000000) ∧ readValue 0x040 keyed = some (.data 0x00000000) ∧
    readValue 0x1F0 keyed = some (.data 0x00000000) ∧
    (nextOf (hostAll [.write .w32 0x100 0xFFFFFFFF, .write .w32 0x00C 0x000000FF] keyed)).map
      (fun t => (t.W[0], t.gfres)) = some (quadOfWord 0x54686174, 0x00) ∧
    (nextOf (hostAll [.write .w32 0x008 0xFFFFFF10] keyed)).map (·.keylen) = some 0x10 := by decide +kernel
/-- 20_memory.md R51. -/
theorem test_bus_error : hostStep (.read .w32 0x011) keyed = .fault (.busError 0x011) ∧
    hostStep (.write .w8 0x010 0) keyed = .fault (.busError 0x010) := ⟨rfl, rfl⟩

/-! ### Steps -/

/-- A command placed is the command the very next step runs. -/
theorem test_withFetchWord : ∀ (s : State), (nextOf (step (s.withFetchWord 32 0x00570020))).map (·.gfres) = some 0xAE :=
  fun _ => rfl
/-- 95_test_vectors.md P5, its first lines: a CMD write, the core's turn, a read of GFRES. -/
theorem test_host_and_core_turns :
    (nextOf (Sys2Proof.core.run 3 { State.reset with
      inputs := [.host (.write .w32 0x000 0x83570021), .core, .host (.read .w32 0x00C)] })).map (·.reply) =
      some (.data 0x000000C1) := by decide

/-! ### Host programs and assembly (30_encoding.md R86, R88; 95_test_vectors.md P1, P2) -/

/-- An 18-byte key, as P3 writes it: the last word is filled with 0x00. -/
theorem test_ldkey : (expandPseudo 0 (.ldkey (List.replicate 16 0x54 ++ [0x61, 0x61]))).getLast? =
    some (.op (.wr 0x030 0x61610000)) := by decide
theorem test_iround : (expandPseudo 0 (.iround 13)).filter (fun l => match l with | .op (.wr _ _) => true | _ => false) =
    [.op (.wr 0x000 0x00000014), .op (.wr 0x000 0x00000012), .op (.wr 0x000 0x00000D10), .op (.wr 0x000 0x00000016)] := by
  decide
/-- 44_block_transform.md R184: 1 + 9 * 4 + 3 = 40 state commands (95_test_vectors.md P2). -/
theorem test_encCommands : (encCommands 10).length = 40 ∧ (encCommands 10).take 6 =
    [.ark 0, .sb, .sr, .mc, .ark 1, .sb] := by decide
/-- R86: `GMUL 0x57, 131 ; product`, and `ARK 16`, which spells no command. -/
theorem test_assembleLine :
    assembleLine (['G', 'M', 'U', 'L', ' ', '0', 'x', '5', '7', ',', ' ', '1', '3', '1', ' ', ';', ' ', 'p']) =
      some (.gmul 0x57 0x83) ∧
    assembleLine (['A', 'R', 'K', ' ', '1', '6']) = none ∧ assembleLine (['S', 'B', ' ', '1']) = none := by decide

/-! ### Witnesses: states and operands that meet the hypotheses of each statement -/

/-- A next state with a property, found by running. -/
theorem next_with {o : Host.Outcome State Fault Refusal} (P : State → Prop) [DecidablePred P]
    (h : (nextOf o).any (fun t => decide (P t)) = true) : ∃ t, o = .next t ∧ P t := by
  cases o with
  | next t => exact ⟨t, rfl, by simpa [nextOf] using h⟩
  | fault e => simp [nextOf] at h
  | refused e => simp [nextOf] at h

theorem witness_DecodeOfEncodeIsTheCommand : (Instr.ark 15).wellFormed = true := by decide
theorem witness_LegalWordIsTheEncodingOfItsCommand : decode 0x00000F10 = .command (.ark 15) := by decide
theorem witness_DecoderFollowsTheOpcodeMap : Instr.row (.ark 0) ∈ opcodeTable ∧
    (Instr.row (.ark 0)).spells 0x00000F10 = true ∧ decode 0x00000F10 = .command (.ark 15) := by decide
theorem witness_ChosenWordsDecodeAsTheSpecLists : ready State.reset := by decide

/-- For `illegalWhenUnusedSet` of every opcode: a ready core and a word with an unused field set. -/
theorem witness_illegalWhenUnusedSet : ready State.reset ∧
    (opField 0x01570020 = 0x20 ∧ bField 0x01570020 ≠ 0) ∧ (opField 0x83570121 = 0x21 ∧ rndField 0x83570121 ≠ 0) ∧
    (opField 0x01530022 = 0x22 ∧ bField 0x01530022 ≠ 0) ∧ (opField 0x00ED1023 = 0x23 ∧ rsvField 0x00ED1023 ≠ 0) ∧
    (opField 0x00000101 = 0x01 ∧ rndField 0x00000101 ≠ 0) ∧ (opField 0x00010010 = 0x10 ∧ aField 0x00010010 ≠ 0) := by
  decide
theorem witness_illegalWhenUnusedSet_plain : ∀ op ∈ ([0x00, 0x01, 0x02, 0x03, 0x11, 0x12, 0x13, 0x14, 0x15, 0x16] : List Byte),
    opField (commandWord op 0 0xFF 0) = op ∧ aField (commandWord op 0 0xFF 0) ≠ 0 := by decide +kernel
theorem witness_GmulObeysTheFieldLaws : (0xFF : Byte) ≠ 0 := by decide
theorem witness_SboxCommandsLookUpIntoGfres : ∃ t, exec (.sbox 0x53) State.reset = .next t ∧
    (t.gfres = 0xED ∧ (nextOf (exec (.isbox t.gfres) t)).isSome = true) := next_with _ (by decide)
theorem witness_SboxIsTheAffineImageOfTheInverse : gmul 0x53 0xCA = 1 := by decide

/-- The three key lengths, the lengths next to them, and the word indices where the clauses of the recurrence meet. -/
theorem witness_KexpExpandsTheMasterKey :
    (ready (withKey 16 key128) ∧ (withKey 16 key128).keylen = 16) ∧
    (ready (withKey 24 key192) ∧ (withKey 24 key192).keylen = 24) ∧
    (ready (withKey 32 key256) ∧ (withKey 32 key256).keylen = 32) ∧
    ready (withKey 15 key128) ∧ (withKey 15 key128).keylen ≠ 16 ∧ (withKey 15 key128).keylen ≠ 24 ∧
    (withKey 15 key128).keylen ≠ 32 := by decide
theorem witness_KexpExpandsTheMasterKey_clauses :
    (4 ≤ 40 ∧ 40 < 4 * (4 + 7) ∧ 40 % 4 = 0) ∧ (8 ≤ 52 ∧ 52 < 4 * (8 + 7) ∧ 52 % 8 ≠ 0 ∧ (8 = 8 ∧ 52 % 8 = 4)) ∧
    (6 ≤ 51 ∧ 51 < 4 * (6 + 7) ∧ 51 % 6 ≠ 0 ∧ ¬(6 = 8 ∧ 51 % 6 = 4)) ∧ (4 * (4 + 7) ≤ 44 ∧ 59 < 60) ∧
    (15 : Fin 32).val < 4 * 4 ∧ (0x008 : BitVec 12) ≠ 0x000 := by decide
theorem witness_KexpWithIllegalLengthWipesTheKeySet : ready { keyed with keylen := 33 } ∧
    { keyed with keylen := 33 }.keylen ≠ 16 ∧ { keyed with keylen := 33 }.keylen ≠ 24 ∧
    { keyed with keylen := 33 }.keylen ≠ 32 := by decide
theorem witness_KexpReadsNoKeyByteBeyondKeylen :
    (withKey 16 key128).keylen = (withKey 16 key192).keylen ∧
    (∀ j : Fin 32, j.val < (withKey 16 key128).keylen.toNat →
      keyByte (withKey 16 key128) j = keyByte (withKey 16 key192) j) ∧
    keyByte (withKey 16 key128) 16 ≠ keyByte (withKey 16 key192) 16 ∧
    (∃ t, exec .kexp (withKey 16 key128) = .next t) ∧ ∃ t, exec .kexp (withKey 16 key192) = .next t :=
  ⟨by decide, by decide, by decide, exec_next _ _, exec_next _ _⟩
theorem witness_FirstRoundKeyIsTheKeysFirstBytes : ∀ len ∈ ([16, 24, 32] : List Byte),
    (withKey len key256).keylen = len ∧ ∃ t, exec .kexp (withKey len key256) = .next t :=
  fun _ _ => ⟨rfl, exec_next _ _⟩

/-- Round NR, the round past it, and a core with no round keys. -/
theorem witness_ArkXorsTheRoundKey : (15 ≤ 15 ∧ 10 ≤ keyed.status.nr.toNat ∧ keyed.status.nr.toNat < 11) ∧
    ready keyed ∧ keyed.status.valid = true ∧ ready State.reset ∧ State.reset.status.valid = false :=
  ⟨by decide, ⟨rfl, rfl, rfl⟩, rfl, by decide, rfl⟩
theorem witness_acceptedWhenReady : ready State.reset := by decide
theorem witness_EncRunsTheCipherRounds : ready keyed ∧ keyed.status.valid = true ∧ ready State.reset ∧
    State.reset.status.valid = false := ⟨⟨rfl, rfl, rfl⟩, rfl, by decide, rfl⟩
theorem witness_DecRunsTheInverseRounds : ready keyed ∧ keyed.status.valid = true ∧ ready State.reset ∧
    State.reset.status.valid = false := ⟨⟨rfl, rfl, rfl⟩, rfl, by decide, rfl⟩
theorem witness_EncAndDecUndoEachOther : keyed.status.valid = true ∧ (withKey 16 key128).keylen = 16 ∧
    (withKey 24 key192).keylen = 24 ∧ (withKey 32 key256).keylen = 32 := ⟨rfl, rfl, rfl, rfl⟩
theorem witness_PrimitiveCommandsComposeToTheTransform : keyed.status.valid = true := rfl

theorem witness_NopOnlyRetires : (failed.status.busy = false ∧ failed.status.err ≠ 0) ∧ busyState.status.busy = true := by
  decide

/-- Each line of `offer`, in order. -/
theorem witness_CommandWriteIsCheckedInOrder :
    busyState.status.busy = true ∧ (failed.status.busy = false ∧ failed.status.err ≠ 0) ∧
    (State.reset.status.busy = false ∧ State.reset.status.err = 0) ∧
    (∀ i, decode 0x0000F010 ≠ .command i) ∧
    (decode 0x00000001 = .command .kexp ∧ (withKey 17 []).keylen ≠ 16 ∧ (withKey 17 []).keylen ≠ 24 ∧
      (withKey 17 []).keylen ≠ 32) ∧
    (decode 0x00000C10 = .command (.ark 12) ∧ State.reset.status.valid = false) ∧
    (decode 0x00000B10 = .command (.ark 11) ∧ keyed.status.valid = true ∧ keyed.status.nr.toNat < 11) ∧
    (decode 0x00000A10 = .command (.ark 10) ∧ 10 ≤ keyed.status.nr.toNat) := by
  have h : decode 0x0000F010 = .illegal .reservedField := by decide
  exact ⟨by decide, by decide, by decide, fun i => by rw [h]; exact Decoded.noConfusion, by decide, by decide,
    ⟨by decide, rfl, by decide⟩, by decide, by decide⟩

theorem witness_Consistent_reset : Consistent State.reset :=
  ⟨by decide, by decide, .inl ⟨rfl, rfl, rfl, by decide⟩, fun w h => by cases h⟩
theorem witness_Consistent_pending : Consistent busyState :=
  ⟨by decide, by decide, .inl ⟨rfl, rfl, rfl, by decide⟩, fun w h => by cases h; exact ⟨.nop, by decide, rfl⟩⟩
theorem witness_Consistent_keyed : Consistent keyed :=
  ⟨rfl, by decide, .inr ⟨rfl, 4, masterKey (withKey 16 key128) 4, .inl rfl, by decide, rfl, rfl, by decide +kernel⟩,
    fun w h => by cases h⟩

theorem witness_ArkXorsTheRoundKey_round_15 : Consistent keyed ∧ ready keyed ∧ keyed.status.valid = true :=
  ⟨witness_Consistent_keyed, ⟨rfl, rfl, rfl⟩, rfl⟩

theorem witness_AcceptedCommandCannotFail :
    (busyState.status.busy = true ∧ ∃ t, hostStep (.write .w32 0x010 0) busyState = .next t ∧ t.status.err = 5) ∧
    Consistent busyState ∧ busyState.pend = some 0x00000000 :=
  ⟨⟨by decide, next_with _ (by decide)⟩, witness_Consistent_pending, rfl⟩
theorem witness_CoreTurnRunsTheDecodedCommand : busyState.pend = some 0x00000000 ∧
    decode 0x00000000 = .command .nop ∧ busyState.inputs = [] ∧
    { busyState with inputs := [.core] }.inputs = .core :: [] := by decide
theorem witness_StepIsOneAgentsTurn :
    { State.reset with inputs := [.host (.read .w8 0xFFF)] }.inputs = .host (.read .w8 0xFFF) :: [] ∧
    { State.reset with inputs := [.reset] }.inputs = .reset :: [] ∧
    ({ busyState with inputs := [.core] }.pend = some 0x00000000 ∧
      { busyState with inputs := [.core] }.inputs = .core :: []) ∧
    ({ busyState with inputs := [] }.pend = some 0x00000000 ∧ { busyState with inputs := [] }.inputs = []) ∧
    ({ State.reset with inputs := [.core] }.pend = none ∧ { State.reset with inputs := [.core] }.inputs = .core :: []) ∧
    State.reset.pend = none ∧ State.reset.inputs = [] := by decide
theorem witness_OfferThenCompletionIsTheCommand : ready State.reset ∧
    (decode 0x00000011 = .command .sb ∧ acceptanceError .sb State.reset = none) ∧
    (decode 0x00000001 = .command .kexp ∧ acceptanceError .kexp State.reset ≠ none) := by decide
theorem witness_PendingCommandCompletesInTime :
    Consistent { busyState with inputs := [.host (.write .w32 0x010 0), .core] } ∧
    { busyState with inputs := [.host (.write .w32 0x010 0), .core] }.pend = some 0x00000000 ∧
    ∀ e ∈ ([.host (.write .w32 0x010 0), .core] : List Event), servedEvent e = true :=
  ⟨⟨by decide, by decide, .inl ⟨rfl, rfl, rfl, by decide⟩, fun w h => by cases h; exact ⟨.nop, by decide, rfl⟩⟩,
    by decide, by decide⟩
/-- A pending SB, with the four kinds of access made to it. -/
theorem witness_HostCannotReachAPendingCommand :
    (accept 0x00000011 State.reset).status.busy = true ∧ decode 0x00000011 = .command .sb ∧
    acceptanceError .sb (accept 0x00000011 State.reset) = none ∧
    (∃ u, hostAll [.write .w32 0x010 0xFFFFFFFF, .write .w32 0x020 1, .write .w32 0x000 0x00000014, .read .w32 0x010]
      (accept 0x00000011 State.reset) = .next u ∧ u.status.err = 5) ∧
    ∃ t, coreStep (accept 0x00000011 State.reset) = .next t ∧ t.S.c0.b0 = 0x63 :=
  ⟨by decide, by decide, by decide, next_with _ (by decide), next_with _ (by decide)⟩

theorem witness_FailingCommandWritesOnlyItsCode : State.reset.status.busy = false ∧ Consistent busyState ∧
    ∃ t, coreStep busyState = .next t ∧ t.pend = none :=
  ⟨rfl, witness_Consistent_pending, next_with _ (by decide)⟩
theorem witness_ErrorBlocksCommandsButNotData : failed.status.busy = false ∧ failed.status.err ≠ 0 := by decide
theorem witness_FirstErrorWinsUntilCleared :
    failed.status.err ≠ 0 ∧
    (∃ t, step { failed with inputs := [.host (.write .w32 0x004 0x80000000)] } = .next t ∧
      t.status.err ≠ failed.status.err) ∧
    ∃ t, step { failed with inputs := [.reset] } = .next t ∧ t.status.err ≠ failed.status.err :=
  ⟨by decide, next_with _ (by decide), next_with _ (by decide)⟩

/-- Both ends of each clause's offsets, and that no offset falls under two clauses. -/
theorem witness_BusyWritesAreDroppedAndReported : busyState.status.busy = true ∧
    (∀ off ∈ ([0x000, 0x008, 0x010, 0x03C] : List (BitVec 12)), off.toNat % 4 = 0 ∧
      (off = 0x000 ∨ off = 0x008 ∨ (0x010 ≤ off.toNat ∧ off.toNat < 0x040))) ∧
    (∀ off ∈ ([0x00C, 0x040, 0xFFC] : List (BitVec 12)), off.toNat % 4 = 0 ∧ (off = 0x00C ∨ 0x040 ≤ off.toNat)) :=
  ⟨rfl, by simp, by simp⟩
theorem witness_BusyWrites_clauses_exclude_each_other (off : BitVec 12) :
    (off = 0x000 ∨ off = 0x008 ∨ (0x010 ≤ off.toNat ∧ off.toNat < 0x040)) →
      off ≠ 0x004 ∧ ¬(off = 0x00C ∨ 0x040 ≤ off.toNat) := by
  rintro (rfl | rfl | ⟨h1, h2⟩)
  · decide
  · decide
  · refine ⟨by rintro rfl; simp at h1, by rintro (rfl | h); simp at h1; omega⟩

theorem witness_StateRegistersCarryTheColumns : State.reset.status.busy = false ∧ busyState.status.busy = true ∧
    (0x01C : BitVec 12) = BitVec.ofNat 12 (0x010 + 4 * (3 : Fin 4).val) := by decide
theorem witness_KeyRegistersCarryTheKeyBytes : State.reset.status.busy = false ∧ busyState.status.busy = true ∧
    (0x03C : BitVec 12) = BitVec.ofNat 12 (0x020 + 4 * (7 : Fin 8).val) ∧ (31 : Fin 32).val / 4 = (7 : Fin 8).val := by
  decide
theorem witness_KeylenRegisterKeepsEightBits : State.reset.status.busy = false ∧ busyState.status.busy = true := by decide
theorem witness_RoundKeyRegistersAreReadOnly : State.reset.status.busy = false ∧ busyState.status.busy = true ∧
    (0x1EC : BitVec 12) = BitVec.ofNat 12 (0x100 + 4 * (59 : Fin 60).val) := by decide
theorem witness_GfresIsReadOnlyAndCmdIsAPort : State.reset.status.busy = false ∧ busyState.status.busy = true := by decide
theorem witness_ReservedOffsetsAndBitsReadZero :
    (∀ off ∈ ([0x040, 0x0FC, 0x1F0, 0xFFC] : List (BitVec 12)), off.toNat % 4 = 0 ∧
      ((0x040 ≤ off.toNat ∧ off.toNat < 0x100) ∨ 0x1F0 ≤ off.toNat)) ∧ State.reset.status.busy = false ∧
    (0xFFFFFF10 : Word).extractLsb' 0 8 = (0x00000010 : Word).extractLsb' 0 8 ∧
    (0x80000000 : Word).getLsbD 31 = (0xFFFFFFFF : Word).getLsbD 31 :=
  ⟨by simp, rfl, by decide, by decide⟩
theorem witness_BusyReadsOfResultsAreDraws : busyState.status.busy = true ∧
    (∀ off ∈ ([0x00C, 0x010, 0x01C, 0x100, 0x1EC] : List (BitVec 12)), off.toNat % 4 = 0 ∧
      (off = 0x00C ∨ (0x010 ≤ off.toNat ∧ off.toNat < 0x020) ∨ (0x100 ≤ off.toNat ∧ off.toNat < 0x1F0))) ∧
    (∀ off ∈ ([0x000, 0x004, 0x008, 0x020, 0x0FC, 0x1F0, 0xFFC] : List (BitVec 12)), off.toNat % 4 = 0 ∧
      (off = 0x000 ∨ off = 0x004 ∨ off = 0x008 ∨ (0x020 ≤ off.toNat ∧ off.toNat < 0x100) ∨ 0x1F0 ≤ off.toNat)) :=
  ⟨rfl, by simp, by simp⟩
theorem witness_OnlyAlignedWordAccessesAreServed :
    (∀ p ∈ ([(.w8, 0x000), (.w16, 0xFFC), (.w32, 0x001), (.w32, 0xFFE)] : List (Width × BitVec 12)),
      ¬(p.1 = .w32 ∧ p.2.toNat % 4 = 0)) ∧ (Width.w32 = .w32 ∧ (0xFFC : BitVec 12).toNat % 4 = 0) := by decide +kernel
theorem witness_ReadsChangeNothingAndDataWritesAreIdempotent : State.reset.status.busy = false ∧
    (∃ t, hostStep (.read .w32 0x004) State.reset = .next t ∧ t.reply = .data 0) ∧
    (∃ t, hostStep (.write .w32 0x008 0x10) State.reset = .next t ∧ t.keylen = 0x10) ∧
    (∃ t, hostStep (.write .w32 0x03C 1) busyState = .next t ∧ t.status.err = 5) ∧
    0x008 ≤ (0x03C : BitVec 12).toNat ∧ (0x03C : BitVec 12).toNat < 0x040 :=
  ⟨by decide, next_with _ (by decide), next_with _ (by decide), next_with _ (by decide), by decide, by decide⟩
theorem witness_LoadedBlockReadsBack : keyed.status.busy = false := rfl
theorem witness_WindowIsFourKilobytesAtBase : offsetOf (hostAddress 0xFFF) = some 0xFFF := by
  have h : baseAddress + 4095 - baseAddress = 4095 := by omega
  simp [offsetOf, hostAddress, h]

theorem witness_ResetGivesEveryRegisterItsValue : resetsNext { accept 0x00000002 keyed with inputs := [.reset] } :=
  ⟨[], rfl⟩
theorem witness_FreshCoreRunsOnlyKeylessCommands : ready State.reset ∧ State.reset.status.valid = false ∧
    State.reset.keylen = 0 ∧ Instr.kexp.wellFormed = true ∧ Instr.enc.wellFormed = true ∧
    Instr.dec.wellFormed = true ∧ (Instr.ark 15).wellFormed = true ∧
    ((Instr.gmul 0xFF 0xFF).wellFormed = true ∧ Instr.gmul 0xFF 0xFF ≠ .kexp ∧ Instr.gmul 0xFF 0xFF ≠ .enc ∧
      Instr.gmul 0xFF 0xFF ≠ .dec ∧ ∀ r, Instr.gmul 0xFF 0xFF ≠ .ark r) := by
  simp [ready, State.reset, Status.reset, Instr.wellFormed]
theorem witness_EveryStepKeepsTheInvariant : Consistent keyed ∧ ∃ t, step keyed = .next t ∧ t.pend = none :=
  ⟨witness_Consistent_keyed, keyed, rfl, rfl⟩
theorem witness_ReachableStatusIsConsistent :
    ∃ t, Host.Core.run Sys2Proof.core 2 { State.reset with inputs := [.host (.write .w32 0x000 0x00000001)] } = .next t ∧
      t.status.err = 1 := next_with _ (by decide)
theorem witness_OnlyHostWritesChangeTheKey :
    (∃ t, step { State.reset with inputs := [.host (.write .w32 0x03C 1)] } = .next t ∧ t.K ≠ State.reset.K) ∧
    ∃ t, step { State.reset with inputs := [.host (.write .w32 0x008 1)] } = .next t ∧ t.keylen ≠ State.reset.keylen :=
  ⟨next_with _ (by decide), next_with _ (by decide)⟩
/-- VALID changes by a failing KEXP and by reset, W (so some word of it) by a KEXP that completes. -/
theorem witness_OnlyKexpAndResetChangeTheKeySet :
    (∃ t, step { keyed with keylen := 0, inputs := [.host (.write .w32 0x000 1)] } = .next t ∧ t.status.valid ≠ true) ∧
    keyed.status.valid = true ∧ (∃ t, step { keyed with inputs := [.reset] } = .next t ∧ t.status.valid ≠ true) ∧
    ∃ t, step (accept 0x00000001 (withKey 16 key128)) = .next t ∧ t.W[0] ≠ (withKey 16 key128).W[0] :=
  ⟨next_with _ (by decide +kernel), rfl, next_with _ (by decide +kernel), next_with _ (by decide +kernel)⟩
theorem witness_OnlyTheirOwnCommandsChangeStateAndGfres :
    (∃ t, step (accept 0x00000022 State.reset) = .next t ∧ t.gfres ≠ State.reset.gfres) ∧
    (∃ t, step { State.reset with inputs := [.host (.write .w32 0x01C 1)] } = .next t ∧ t.S ≠ State.reset.S) ∧
    ∃ t, step (accept 0x00000011 State.reset) = .next t ∧ t.S ≠ State.reset.S :=
  ⟨next_with _ (by decide), next_with _ (by decide), next_with _ (by decide)⟩
theorem witness_PendIsSetByAcceptanceAndEmptiedByCompletion :
    (∃ t, step busyState = .next t ∧ t.pend ≠ busyState.pend) ∧
    ∃ t, step { State.reset with inputs := [.host (.write .w32 0x000 0)] } = .next t ∧ t.pend ≠ State.reset.pend :=
  ⟨next_with _ (by decide), next_with _ (by decide)⟩

end Sys2Proof.Tests
end

section
/-! SUPPORT. The register window access by access: each served read and write as a whole next state, the values behind the
registers, and from them the statements about 20_memory.md. -/

namespace Sys2Proof.Machine

/-! ### Offsets -/

/-- The offset of a register, `4n`, is aligned (20_memory.md R51). -/
theorem toNat_ofNat_mod_four {n : Nat} (h : n % 4 = 0) : (BitVec.ofNat 12 n).toNat % 4 = 0 := by
  rw [BitVec.toNat_ofNat]; omega

/-- The reserved offsets (20_memory.md R52, R59). -/
theorem regAt_reserved {off : BitVec 12} (h4 : off.toNat % 4 = 0)
    (h : (0x040 ≤ off.toNat ∧ off.toNat < 0x100) ∨ 0x1F0 ≤ off.toNat) : regAt off = .reserved := by
  rcases regAt_cases off h4 with ⟨ho, _⟩ | ⟨ho, _⟩ | ⟨ho, _⟩ | ⟨ho, _⟩ | ⟨_, _, _⟩ | ⟨_, _, _⟩ | ⟨_, _, _⟩ | ⟨_, hr⟩
  on_goal 8 => exact hr
  all_goals bv_omega

/-- The offsets whose reads are draws while BUSY = 1 (20_memory.md R61). -/
theorem drawnWhileBusy_regAt {off : BitVec 12} (h4 : off.toNat % 4 = 0) :
    drawnWhileBusy (regAt off) = true ↔
      off = 0x00C ∨ (0x010 ≤ off.toNat ∧ off.toNat < 0x020) ∨ (0x100 ≤ off.toNat ∧ off.toNat < 0x1F0) := by
  rcases regAt_cases off h4 with ⟨ho, h⟩ | ⟨ho, h⟩ | ⟨ho, h⟩ | ⟨ho, h⟩ | ⟨_, _, _, h⟩ | ⟨_, _, _, h⟩ |
    ⟨_, _, _, h⟩ | ⟨_, h⟩ <;>
  simp only [h, drawnWhileBusy, true_iff, Bool.false_eq_true, false_iff] <;> bv_omega

theorem regAt_eq_status_iff {off : BitVec 12} (h4 : off.toNat % 4 = 0) : regAt off = .status ↔ off = 0x004 := by
  refine ⟨fun h => ?_, fun h => h ▸ regAt_status⟩
  rcases regAt_cases off h4 with ⟨_, hr⟩ | ⟨rfl, _⟩ | ⟨_, hr⟩ | ⟨_, hr⟩ | ⟨_, _, _, hr⟩ | ⟨_, _, _, hr⟩ |
    ⟨_, _, _, hr⟩ | ⟨_, hr⟩ <;> simp_all

/-! ### Served reads -/

theorem hostStep_read_exact {off : BitVec 12} {r : Reg} {s : State} (h4 : off.toNat % 4 = 0) (hr : regAt off = r)
    (h : s.status.busy = false ∨ drawnWhileBusy r = false) :
    hostStep (.read .w32 off) s = .next { s with reply := .data (readReg s r) } := by
  rw [hostStep_read off s h4, hr, hostRead_exact r s h]

theorem hostStep_read_draw {off : BitVec 12} {r : Reg} {s : State} (h4 : off.toNat % 4 = 0) (hr : regAt off = r)
    (hb : s.status.busy = true) (hd : drawnWhileBusy r = true) :
    hostStep (.read .w32 off) s =
      .next { s with reply := .data (Config.busyRead s.draws), draws := s.draws + 1 } := by
  rw [hostStep_read off s h4, hr, hostRead_draw r s hb hd]

/-! ### Served writes -/

/-- The registers whose writes a pending command stops (70_reset_and_hazards.md R241). -/
def droppedWhileBusy : Reg → Bool
  | .cmd | .keylen | .state _ | .key _ => true
  | .status | .gfres | .rkw _ | .reserved => false

/-- The registers that ignore writes (20_memory.md R56, R57, R59). -/
def ignoresWrites : Reg → Bool
  | .gfres | .rkw _ | .reserved => true
  | .cmd | .status | .keylen | .state _ | .key _ => false

theorem writeReg_dropped {r : Reg} (v : Word) {s : State} (hb : s.status.busy = true)
    (hr : droppedWhileBusy r = true) : writeReg r v s = raise .busy s := by
  cases r with
  | cmd => exact offer_busy v s hb
  | keylen => exact writeUnlessBusy_busy _ s hb
  | state c => exact writeUnlessBusy_busy _ s hb
  | key j => exact writeUnlessBusy_busy _ s hb
  | status | gfres | rkw | reserved => cases hr

theorem writeReg_ignored {r : Reg} (v : Word) (s : State) (hr : ignoresWrites r = true) : writeReg r v s = s := by
  cases r with
  | gfres | rkw | reserved => rfl
  | cmd | status | keylen | state | key => cases hr

theorem hostStep_write_eq {off : BitVec 12} {r : Reg} (v : Word) {s t : State} (h4 : off.toNat % 4 = 0)
    (hr : regAt off = r) (ht : writeReg r v s = t) :
    hostStep (.write .w32 off v) s = .next { t with reply := .done } := by
  rw [hostStep_write off v s h4, hr, ← ht]; rfl

theorem hostStep_write_dropped {off : BitVec 12} {r : Reg} (v : Word) {s : State} (h4 : off.toNat % 4 = 0)
    (hr : regAt off = r) (hb : s.status.busy = true) (hd : droppedWhileBusy r = true) :
    hostStep (.write .w32 off v) s =
      .next { s with reply := .done,
                     status := { s.status with err := if s.status.err = 0 then 5 else s.status.err } } :=
  hostStep_write_eq v h4 hr (writeReg_dropped v hb hd)

theorem hostStep_write_ignored {off : BitVec 12} {r : Reg} (v : Word) (s : State) (h4 : off.toNat % 4 = 0)
    (hr : regAt off = r) (hi : ignoresWrites r = true) :
    hostStep (.write .w32 off v) s = .next { s with reply := .done } :=
  hostStep_write_eq v h4 hr (writeReg_ignored v s hi)

theorem hostStep_write_congr {off : BitVec 12} {r : Reg} {v w : Word} {s : State} (h4 : off.toNat % 4 = 0)
    (hr : regAt off = r) (hw : writeReg r v s = writeReg r w s) :
    hostStep (.write .w32 off v) s = hostStep (.write .w32 off w) s :=
  (hostStep_write_eq v h4 hr hw).trans (hostStep_write_eq w h4 hr rfl).symm

theorem writeReg_keylen_idle (v : Word) (s : State) (hb : s.status.busy = false) :
    writeReg .keylen v s = setKeylen (v.extractLsb' 0 8) s := writeUnlessBusy_idle _ s hb

theorem writeReg_state_idle (c : Fin 4) (v : Word) (s : State) (hb : s.status.busy = false) :
    writeReg (.state c) v s = setBlock (blockSetColumn s.S c (quadOfWord v)) s := writeUnlessBusy_idle _ s hb

theorem writeReg_key_idle (j : Fin 8) (v : Word) (s : State) (hb : s.status.busy = false) :
    writeReg (.key j) v s = setKeyWord j (quadOfWord v) s := writeUnlessBusy_idle _ s hb

/-- A write of STATUS clears ERR when bit 31 is set and does nothing else (20_memory.md R58). -/
theorem writeReg_status (v : Word) (s : State) : writeReg .status v s =
    { s with status := { s.status with err := if v.getLsbD 31 then 0 else s.status.err } } := by
  rw [writeReg]
  cases v.getLsbD 31 <;> rfl

/-! ### The values behind the registers -/

/-- A column written, by row and column (20_memory.md R53). -/
theorem blockGet_blockSetColumn (T : Block) (c : Fin 4) (q : Quad) (r c' : Fin 4) :
    blockGet (blockSetColumn T c q) r c' = if c' = c then quadGet q r else blockGet T r c' := by
  rw [blockGet, blockColumn_blockSetColumn]
  split <;> rfl

/-- A key word written, by key byte (20_memory.md R54). -/
theorem keyByte_setKeyWord (j : Fin 8) (q : Quad) (s : State) (m : Fin 32) :
    keyByte (setKeyWord j q s) m =
      if m.val / 4 = j.val then quadGet q ⟨m.val % 4, Nat.mod_lt _ (by decide)⟩ else keyByte s m := by
  simp only [keyByte, setKeyWord_K, Vector.getElem_set, @eq_comm _ j.val]
  split <;> rfl

theorem roundKeyWord_eq_getElem (s : State) (i : Fin 60) : roundKeyWord s i.val = s.W[i] := by
  simp [roundKeyWord, List.getD]

theorem blockColumn_roundKey (s : State) (r : Nat) (c : Fin 4) :
    blockColumn (roundKey s r) c = roundKeyWord s (4 * r + c.val) := by
  match c with
  | 0 => rfl
  | 1 => rfl
  | 2 => rfl
  | 3 => rfl

/-- A byte register reads zero-extended: bits 31:8 are 0 (20_memory.md R59). -/
theorem extractLsb'_setWidth_byte (b : Byte) : (b.setWidth 32).extractLsb' 8 24 = 0 := by
  apply BitVec.eq_of_getLsbD_eq
  intro i hi
  simp

/-- Bits 31:16 of STATUS read 0 (20_memory.md R58, R59). -/
theorem statusWord_extract_high (t : Status) (len : Nat) : (statusWord t).extractLsb' 16 len = 0 := by
  apply BitVec.eq_of_getLsbD_eq
  intro i hi
  have hnr : t.nr.getLsbD (16 + i - 12) = false := BitVec.getLsbD_of_ge _ _ (by omega)
  rw [BitVec.getLsbD_extractLsb', statusWord_getLsbD]
  grind

/-- The fields of STATUS as its read shows them (20_memory.md R58). -/
theorem statusWord_fields (t : Status) :
    (statusWord t).getLsbD 0 = t.busy ∧ (statusWord t).getLsbD 1 = t.valid ∧ (statusWord t).extractLsb' 2 2 = 0 ∧
    (statusWord t).extractLsb' 4 4 = t.err ∧ (statusWord t).extractLsb' 8 4 = t.nk ∧
    (statusWord t).extractLsb' 12 4 = t.nr ∧ (statusWord t).extractLsb' 16 16 = 0 := by
  refine ⟨statusWord_getLsbD t 0, statusWord_getLsbD t 1, ?_, ?_, ?_, ?_, statusWord_extract_high t 16⟩ <;>
    (apply BitVec.eq_of_getLsbD_eq; intro i hi
     rw [BitVec.getLsbD_extractLsb', statusWord_getLsbD]; grind)

/-- STATUS with BUSY = 0 is STATUS with its own bit 0 cleared (20_memory.md R58). -/
theorem statusWord_not_busy (t : Status) : statusWord { t with busy := false } = statusWord t &&& 0xFFFFFFFE := by
  have hmask : ∀ i : Fin 32, (0xFFFFFFFE : Word).getLsbD i = decide (i.val ≠ 0) := by decide
  apply BitVec.eq_of_getLsbD_eq
  intro i hi
  rw [BitVec.getLsbD_and, hmask ⟨i, hi⟩, statusWord_getLsbD, statusWord_getLsbD]
  by_cases h0 : i = 0 <;> simp [h0]

/-- BUSY shows in the read of STATUS and in no other register's exact value. -/
theorem readReg_not_busy (s : State) (r : Reg) :
    readReg { s with status := { s.status with busy := false } } r =
      if r = .status then readReg s r &&& 0xFFFFFFFE else readReg s r := by
  cases r with
  | status => exact statusWord_not_busy s.status
  | cmd | keylen | gfres | state | key | rkw | reserved => rfl

end Sys2Proof.Machine

section
open Sys2Proof Sys2Proof.Machine

/-- Settles O37: a column is read and written whole, and a pending command turns the read into a draw. -/
theorem stateRegistersCarryTheColumns : Obligations.StateRegistersCarryTheColumns := by
  rintro s c v off rfl
  have h4 : (BitVec.ofNat 12 (0x010 + 4 * c.val)).toNat % 4 = 0 := toNat_ofNat_mod_four (by omega)
  have hr := regAt_state c
  refine ⟨fun hb => ⟨⟨_, hostStep_read_exact h4 hr (.inl hb), quadToWord_byte (blockColumn s.S c)⟩,
      blockSetColumn s.S c (quadOfWord v), hostStep_write_eq v h4 hr (writeReg_state_idle c v s hb), fun r c' => ?_⟩,
    fun hb => ⟨hostStep_read_draw h4 hr hb rfl, hostStep_write_dropped v h4 hr hb rfl⟩⟩
  rw [blockGet_blockSetColumn, quadGet_quadOfWord]

/-- Settles O38: key byte `m` is byte `m mod 4` of KEY register `m div 4`, read exactly in every state. -/
theorem keyRegistersCarryTheKeyBytes : Obligations.KeyRegistersCarryTheKeyBytes := by
  rintro s j v off rfl
  have h4 : (BitVec.ofNat 12 (0x020 + 4 * j.val)).toNat % 4 = 0 := toNat_ofNat_mod_four (by omega)
  have hr := regAt_key j
  refine ⟨⟨_, hostStep_read_exact h4 hr (.inr rfl), fun m hm => ?_⟩,
    fun hb => ⟨(setKeyWord j (quadOfWord v) s).K, hostStep_write_eq v h4 hr (writeReg_key_idle j v s hb), fun m => ?_⟩,
    fun hb => hostStep_write_dropped v h4 hr hb rfl⟩
  · simp only [readReg, keyByte, hm]
    exact quadToWord_extract _ ⟨m.val % 4, _⟩
  · have hq := quadGet_quadOfWord v ⟨m.val % 4, Nat.mod_lt _ (by decide)⟩
    exact (keyByte_setKeyWord j (quadOfWord v) s m).trans (by rw [hq])

/-- Settles O39: KEYLEN is read exactly in every state and written when no command is pending. -/
theorem keylenRegisterKeepsEightBits : Obligations.KeylenRegisterKeepsEightBits := fun s v =>
  ⟨hostStep_read_exact rfl regAt_keylen (.inr rfl),
   fun hb => hostStep_write_eq v rfl regAt_keylen (writeReg_keylen_idle v s hb),
   fun hb => hostStep_write_dropped v rfl regAt_keylen hb rfl⟩

/-- Settles O40: column `c` of RK(r) is `W[4r + c]`, the word that RKW register `4r + c` shows. -/
theorem roundKeyRegistersAreReadOnly : Obligations.RoundKeyRegistersAreReadOnly := by
  have h4 (i : Fin 60) : (BitVec.ofNat 12 (0x100 + 4 * i.val)).toNat % 4 = 0 := toNat_ofNat_mod_four (by omega)
  refine ⟨fun s r c hb => ?_, ?_⟩
  · let i : Fin 60 := ⟨4 * r.val + c.val, by omega⟩
    have hoff : 0x100 + 16 * r.val + 4 * c.val = 0x100 + 4 * i.val := by simp only [i]; omega
    have hcol : blockColumn (roundKey s r.val) c = s.W[i] :=
      (blockColumn_roundKey s r.val c).trans (roundKeyWord_eq_getElem s i)
    rw [hoff, hcol]
    exact hostStep_read_exact (h4 i) (regAt_rkw i) (.inl hb)
  · rintro s i v off rfl
    exact ⟨fun hb => ⟨_, hostStep_read_exact (h4 i) (regAt_rkw i) (.inl hb), quadToWord_byte s.W[i]⟩,
      fun hb => hostStep_read_draw (h4 i) (regAt_rkw i) hb rfl,
      hostStep_write_ignored v s (h4 i) (regAt_rkw i) rfl⟩

/-- Settles O41: GFRES ignores writes and is drawn while busy; a write of CMD is `offer`. -/
theorem gfresIsReadOnlyAndCmdIsAPort : Obligations.GfresIsReadOnlyAndCmdIsAPort := fun s v =>
  ⟨fun hb => hostStep_read_exact rfl regAt_gfres (.inl hb),
   fun hb => hostStep_read_draw rfl regAt_gfres hb rfl,
   hostStep_write_ignored v s rfl regAt_gfres rfl,
   hostStep_read_exact rfl regAt_cmd (.inr rfl),
   hostStep_write_eq v rfl regAt_cmd rfl⟩

/-- Settles O42: the reserved bits read 0, and a write's effect is a function of the bits that are not reserved. -/
theorem reservedOffsetsAndBitsReadZero : Obligations.ReservedOffsetsAndBitsReadZero := by
  refine ⟨fun s v off h4 h => ?_, fun s => ?_, fun s hb => ?_, fun s v w => ⟨fun h => ?_, fun h => ?_, ?_⟩⟩
  · have hr := regAt_reserved h4 h
    exact ⟨hostStep_read_exact h4 hr (.inr rfl), hostStep_write_ignored v s h4 hr rfl⟩
  · obtain ⟨_, _, h2, _⟩ := statusWord_fields s.status
    exact ⟨_, _, hostStep_read_exact rfl regAt_keylen (.inr rfl), extractLsb'_setWidth_byte _,
      hostStep_read_exact rfl regAt_status (.inr rfl), h2, statusWord_extract_high _ 15⟩
  · exact ⟨_, hostStep_read_exact rfl regAt_gfres (.inl hb), extractLsb'_setWidth_byte _⟩
  · exact hostStep_write_congr rfl regAt_keylen (by rw [writeReg, writeReg, h])
  · exact hostStep_write_congr rfl regAt_status (by rw [writeReg_status, writeReg_status, h])
  · exact hostStep_write_congr rfl regAt_gfres rfl

/-- Settles O43: STATUS is no drawn register, so its read is exact in every state. -/
theorem statusRegisterReadsItsFields : Obligations.StatusRegisterReadsItsFields := fun s v =>
  ⟨⟨_, hostStep_read_exact rfl regAt_status (.inr rfl), statusWord_fields s.status⟩,
   hostStep_write_eq v rfl regAt_status (writeReg_status v s)⟩

/-- Settles O44: the drawn offsets are `drawnWhileBusy_regAt`'s; every other read is exact, and only STATUS shows BUSY. -/
theorem busyReadsOfResultsAreDraws : Obligations.BusyReadsOfResultsAreDraws := by
  intro s off hb h4
  refine ⟨fun h => hostStep_read_draw h4 rfl hb ((drawnWhileBusy_regAt h4).2 h), fun h => ?_⟩
  have hd : drawnWhileBusy (regAt off) = false := by
    rw [← Bool.not_eq_true, drawnWhileBusy_regAt h4]
    bv_omega
  refine ⟨_, hostStep_read_exact h4 rfl (.inr hd), ?_⟩
  rw [hostStep_read_exact h4 rfl (.inl rfl), readReg_not_busy]
  simp only [regAt_eq_status_iff h4]

/-- Settles O45: `served` is the whole condition. -/
theorem onlyAlignedWordAccessesAreServed : Obligations.OnlyAlignedWordAccessesAreServed := by
  refine fun s width off v => ⟨fun h => ?_, ?_⟩
  · have hs : served width off = false := by simpa [served] using h
    exact ⟨by simp [hostStep, hs], by simp [hostStep, hs]⟩
  · rintro ⟨rfl, h4⟩
    exact ⟨_, _, hostStep_read off s h4, hostStep_write off v s h4⟩

end
end

section
/-! SUPPORT. The decoder inverts the encoder both ways, and the words a row of the opcode map spells are the encodings of
the row's commands; from them the statement about the opcode map (30_encoding.md R82). -/

namespace Sys2Proof

/-! ### The decoder and the encoder -/

/-- The decoder undoes the encoder on every command the format can spell (30_encoding.md R83, R85). -/
theorem decode_encode {i : Instr} (h : i.wellFormed = true) : decode (encode i) = .command i := by
  cases i with
  | ark rnd =>
    have hlt : rnd < 16 := by simpa [Instr.wellFormed, Nat.lt_succ_iff] using h
    simp [encode, decode_commandWord, decodeFields, commandIf, Nat.mod_eq_of_lt hlt]
  | xtime | gmul | sbox | isbox => simp [encode, decode_commandWord, decodeFields, commandIf]
  | nop | kexp | enc | dec | sb | isb | sr | isr | mc | imc => rfl

/-- Each line of the decoder's `case` names the command whose encoding has the fields it read (30_encoding.md R85). -/
theorem encode_of_decodeFields {op : Byte} {rnd : BitVec 4} {a b : Byte} {i : Instr}
    (h : decodeFields op rnd a b = .command i) : i.wellFormed = true ∧ encode i = commandWord op rnd a b := by
  have hrnd : rnd.toNat ≤ 15 := Nat.le_of_lt_succ rnd.isLt
  unfold decodeFields at h
  iterate 15
    obtain ⟨rfl, hline⟩ | ⟨-, hnext⟩ := ite_eq_command h
    · obtain ⟨hzero, rfl⟩ := commandIf_eq_command.1 hline
      simp_all [Instr.wellFormed, encode]
    replace h := hnext
  cases h

/-- A word that decodes is the encoding of its command (30_encoding.md R83, R85). -/
theorem encode_of_decode {w : Word} {i : Instr} (h : decode w = .command i) :
    i.wellFormed = true ∧ encode i = w := by
  obtain ⟨-, hillegal⟩ | ⟨hrsv, hfields⟩ := ite_eq_command h
  · cases hillegal
  · rw [← commandWord_fields w (not_not.1 hrsv)]
    exact encode_of_decodeFields hfields

/-! ### A word under a mask, field by field (30_encoding.md R80, R82) -/

@[simp] theorem opField_and (w m : Word) : opField (w &&& m) = opField w &&& opField m := BitVec.extractLsb'_and

@[simp] theorem rndField_and (w m : Word) : rndField (w &&& m) = rndField w &&& rndField m := BitVec.extractLsb'_and

@[simp] theorem rsvField_and (w m : Word) : rsvField (w &&& m) = rsvField w &&& rsvField m := BitVec.extractLsb'_and

@[simp] theorem aField_and (w m : Word) : aField (w &&& m) = aField w &&& aField m := BitVec.extractLsb'_and

@[simp] theorem bField_and (w m : Word) : bField (w &&& m) = bField w &&& bField m := BitVec.extractLsb'_and

/-- A mask acts on a command word field by field; the reserved field stays 0. -/
theorem commandWord_and (op : Byte) (rnd : BitVec 4) (a b : Byte) (m : Word) :
    commandWord op rnd a b &&& m =
      commandWord (op &&& opField m) (rnd &&& rndField m) (a &&& aField m) (b &&& bField m) := by
  rw [← commandWord_fields (commandWord op rnd a b &&& m) (by simp)]
  simp

/-- What `w & mask = match` says of each field of the word. -/
theorem and_eq_commandWord {w m : Word} {op : Byte} {rnd : BitVec 4} {a b : Byte}
    (h : w &&& m = commandWord op rnd a b) :
    opField w &&& opField m = op ∧ rndField w &&& rndField m = rnd ∧ rsvField w &&& rsvField m = 0 ∧
    aField w &&& aField m = a ∧ bField w &&& bField m = b := by
  refine ⟨?_, ?_, ?_, ?_, ?_⟩
  · rw [← opField_and, h, opField_commandWord]
  · rw [← rndField_and, h, rndField_commandWord]
  · rw [← rsvField_and, h, rsvField_commandWord]
  · rw [← aField_and, h, aField_commandWord]
  · rw [← bField_and, h, bField_commandWord]

/-- A field that the mask takes whole is the match value's field. -/
theorem eq_of_and_allOnes {n : Nat} {x p : BitVec n} (h : x &&& BitVec.allOnes n = p) : x = p := by
  rwa [BitVec.and_allOnes] at h

/-- A word is known by its fields, the reserved one being 0 (30_encoding.md R80). -/
theorem commandWord_eq {w : Word} {op : Byte} {rnd : BitVec 4} {a b : Byte} (hop : opField w = op)
    (hrnd : rndField w = rnd) (hrsv : rsvField w = 0) (ha : aField w = a) (hb : bField w = b) :
    commandWord op rnd a b = w := by
  subst hop hrnd ha hb
  exact commandWord_fields w hrsv

/-! ### The four masks of the opcode map: the fields outside the mask are the operands, the others are fixed -/

theorem commandWord_of_mask_all {w : Word} {op : Byte} (h : w &&& 0xFFFFFFFF = commandWord op 0 0 0) :
    commandWord op 0 0 0 = w := by
  obtain ⟨hop, hrnd, hrsv, ha, hb⟩ := and_eq_commandWord h
  exact commandWord_eq (eq_of_and_allOnes hop) (eq_of_and_allOnes hrnd) (eq_of_and_allOnes hrsv)
    (eq_of_and_allOnes ha) (eq_of_and_allOnes hb)

theorem commandWord_of_mask_rnd {w : Word} {op : Byte} (h : w &&& 0xFFFFF0FF = commandWord op 0 0 0) :
    commandWord op (rndField w) 0 0 = w := by
  obtain ⟨hop, -, hrsv, ha, hb⟩ := and_eq_commandWord h
  exact commandWord_eq (eq_of_and_allOnes hop) rfl (eq_of_and_allOnes hrsv) (eq_of_and_allOnes ha)
    (eq_of_and_allOnes hb)

theorem commandWord_of_mask_a {w : Word} {op : Byte} (h : w &&& 0xFF00FFFF = commandWord op 0 0 0) :
    commandWord op 0 (aField w) 0 = w := by
  obtain ⟨hop, hrnd, hrsv, -, hb⟩ := and_eq_commandWord h
  exact commandWord_eq (eq_of_and_allOnes hop) (eq_of_and_allOnes hrnd) (eq_of_and_allOnes hrsv) rfl
    (eq_of_and_allOnes hb)

theorem commandWord_of_mask_ab {w : Word} {op : Byte} (h : w &&& 0x0000FFFF = commandWord op 0 0 0) :
    commandWord op 0 (aField w) (bField w) = w := by
  obtain ⟨hop, hrnd, hrsv, -, -⟩ := and_eq_commandWord h
  exact commandWord_eq (eq_of_and_allOnes hop) (eq_of_and_allOnes hrnd) (eq_of_and_allOnes hrsv) rfl rfl

/-! ### The rows of the opcode map -/

theorem row_mem_opcodeTable (i : Instr) : i.row ∈ opcodeTable := by
  cases i <;> simp [opcodeTable, Instr.row]

theorem exists_row_of_mem_opcodeTable {row : OpcodeRow} (h : row ∈ opcodeTable) : ∃ i : Instr, i.row = row := by
  simp only [opcodeTable, ← List.map_cons, ← List.map_nil (f := Instr.row), ← List.map_append] at h
  obtain ⟨i, -, hi⟩ := List.mem_map.1 h
  exact ⟨i, hi⟩

/-- A command's word matches the command's row: the row's mask is 0 on the operand fields alone. -/
theorem row_spells_encode (i : Instr) : i.row.spells (encode i) = true := by
  cases i with
  | ark | xtime | gmul | sbox | isbox =>
    simp [OpcodeRow.spells, Instr.row, encode, commandWord_and, opField, rndField, aField, bField]
    rfl
  | nop | kexp | enc | dec | sb | isb | sr | isr | mc | imc => rfl

/-- A word that matches a row encodes a command of the row, its operands read from the fields the mask leaves out. -/
theorem exists_encode_of_spells {i : Instr} {w : Word} (h : i.row.spells w = true) :
    ∃ j : Instr, j.wellFormed = true ∧ j.row = i.row ∧ encode j = w := by
  have hmask : w &&& i.row.mask = i.row.pattern := of_decide_eq_true h
  cases i with
  | nop | kexp | enc | dec | sb | isb | sr | isr | mc | imc => exact ⟨_, rfl, rfl, commandWord_of_mask_all hmask⟩
  | ark =>
    have hrnd : (rndField w).toNat ≤ 15 := Nat.le_of_lt_succ (rndField w).isLt
    have hw : encode (.ark (rndField w).toNat) = w := by
      rw [encode, BitVec.ofNat_toNat, BitVec.setWidth_eq]
      exact commandWord_of_mask_rnd hmask
    exact ⟨.ark (rndField w).toNat, decide_eq_true hrnd, rfl, hw⟩
  | xtime => exact ⟨.xtime (aField w), rfl, rfl, commandWord_of_mask_a hmask⟩
  | gmul => exact ⟨.gmul (aField w) (bField w), rfl, rfl, commandWord_of_mask_ab hmask⟩
  | sbox => exact ⟨.sbox (aField w), rfl, rfl, commandWord_of_mask_a hmask⟩
  | isbox => exact ⟨.isbox (aField w), rfl, rfl, commandWord_of_mask_a hmask⟩

/-- 30_encoding.md R82: a row spells exactly the words that decode to a command of the row. -/
theorem spells_iff_decode {row : OpcodeRow} (hrow : row ∈ opcodeTable) (w : Word) :
    row.spells w = true ↔ ∃ i, decode w = .command i ∧ i.row = row := by
  obtain ⟨i, rfl⟩ := exists_row_of_mem_opcodeTable hrow
  constructor
  · intro h
    obtain ⟨j, hwf, hj, rfl⟩ := exists_encode_of_spells h
    exact ⟨j, decode_encode hwf, hj⟩
  · rintro ⟨j, hd, hj⟩
    rw [← hj, ← (encode_of_decode hd).2]
    exact row_spells_encode j

end Sys2Proof

section
open Sys2Proof

/-- Settles O3: a row's words are those that decode to its commands, and the decoder gives a word one command. -/
theorem decoderFollowsTheOpcodeMap : Obligations.DecoderFollowsTheOpcodeMap := by
  refine ⟨fun w row hrow => spells_iff_decode hrow w, fun _ i _ => row_mem_opcodeTable i, ?_⟩
  intro w row row' hrow hrow' h h'
  obtain ⟨i, hd, rfl⟩ := (spells_iff_decode hrow w).1 h
  obtain ⟨i', hd', rfl⟩ := (spells_iff_decode hrow' w).1 h'
  have hi : i = i' := Decoded.command.inj (hd.symm.trans hd')
  rw [hi]

end
end

section
/-! SUPPORT. The common part of a command's rule, once for all commands: a ready core takes a legal word and records an
illegal one (45_control.md R190, 30_encoding.md R84). Then the laws of xtime and gmul, and from them the statements about
XTIME and GMUL (40_galois_field.md). -/

namespace Sys2Proof.Machine

/-! ### A word offered to a ready core -/

theorem offer_of_decode_illegal {w : Word} {s : State} {why : Illegal} (hs : ready s) (hd : decode w = .illegal why) :
    offer w s = { s with status := { s.status with err := 4 } } := by
  obtain ⟨hb, he, -⟩ := hs
  simp [offer, hb, he, hd, raise, recordError, errorCode]

theorem offer_encode {i : Instr} {s : State} (hs : ready s) (hwf : i.wellFormed = true)
    (ha : acceptanceError i s = none) : offer (encode i) s = accept (encode i) s := by
  obtain ⟨hb, he, -⟩ := hs
  simp [offer, hb, he, decode_encode hwf, ha]

/-- A command without a check of its own is accepted by every ready core (45_control.md R190). -/
theorem acceptedWhenReady_of_unchecked {i : Instr} (hwf : i.wellFormed = true)
    (ha : ∀ s, acceptanceError i s = none) : acceptedWhenReady i :=
  fun s hs => offer_encode hs hwf (ha s)

/-- An opcode's unused fields raise IllegalCommand if its line of the decoder asks that they be 0 (30_encoding.md R84). -/
theorem illegalWhenUnusedSet_of_decodeFields {op : Byte} {usesRnd usesA usesB : Bool}
    (h : ∀ rnd a b i, decodeFields op rnd a b = .command i →
      (usesRnd = false → rnd = 0) ∧ (usesA = false → a = 0) ∧ (usesB = false → b = 0)) :
    illegalWhenUnusedSet op usesRnd usesA usesB := by
  rintro w s hs rfl hset
  cases hd : decode w with
  | illegal why => exact offer_of_decode_illegal hs hd
  | command i =>
    obtain ⟨-, hillegal⟩ | ⟨hrsv, hline⟩ := ite_eq_command hd
    · cases hillegal
    · obtain ⟨hrnd, ha, hb⟩ := h _ _ _ _ hline
      obtain hne | ⟨hu, hne⟩ | ⟨hu, hne⟩ | ⟨hu, hne⟩ := hset
      · exact absurd hne hrsv
      · exact absurd (hrnd hu) hne
      · exact absurd (ha hu) hne
      · exact absurd (hb hu) hne

/-! ### xtime and gmul -/

/-- The second form of xtime: shift, and reduce by 0x1B where bit 7 was set (40_galois_field.md R101). -/
theorem xtime_eq_shiftLeft_xor (b : Byte) : xtime b = (b <<< 1) ^^^ (if b.getLsbD 7 then 0x1B else 0x00) := by
  apply BitVec.eq_of_getLsbD_eq
  intro i hi
  rw [xtime_getLsbD b i hi, BitVec.getLsbD_xor, BitVec.getLsbD_shiftLeft]
  cases b.getLsbD 7 <;> simp [hi, Nat.one_le_iff_ne_zero]

/-- The loop from bit `i` up adds `xtime^j(a)` for each bit `j` of `b` that is 1 (40_galois_field.md R102). -/
theorem gmulLoop_eq_foldl (a b : Byte) (n i : Nat) (r : Byte) :
    gmulLoop b n i (Nat.iterate xtime i a) r =
      (List.range' i n).foldl (fun r j => if b.getLsbD j then r ^^^ Nat.iterate xtime j a else r) r := by
  induction n generalizing i r with
  | zero => rfl
  | succ n ih => rw [gmulLoop, ← Function.iterate_succ_apply' xtime, ih, List.range'_succ, List.foldl_cons]

/-- The second form of gmul (40_galois_field.md R102). -/
theorem gmul_eq_foldl (a b : Byte) :
    gmul a b = (List.range 8).foldl (fun r i => if b.getLsbD i then r ^^^ Nat.iterate xtime i a else r) 0 := by
  rw [List.range_eq_range']
  exact gmulLoop_eq_foldl a b 8 0 0

theorem gmulLoop_xor (b : Byte) (n i : Nat) (p q r t : Byte) :
    gmulLoop b n i (p ^^^ q) (r ^^^ t) = gmulLoop b n i p r ^^^ gmulLoop b n i q t := by
  induction n generalizing i p q r t with
  | zero => rfl
  | succ n ih =>
    simp only [gmulLoop, xtime_xor, ← ih]
    cases b.getLsbD i with
    | false => rfl
    | true => exact congrArg (gmulLoop b n _ _) (by simp only [if_true]; ac_rfl)

theorem xor_gmul (a a' b : Byte) : gmul (a ^^^ a') b = gmul a b ^^^ gmul a' b := gmulLoop_xor b 8 0 a a' 0 0

/-- An additive map that commutes with xtime passes through the loop. -/
theorem map_gmulLoop {f : Byte → Byte} (hxor : ∀ x y, f (x ^^^ y) = f x ^^^ f y)
    (hxtime : ∀ x, f (xtime x) = xtime (f x)) (b : Byte) (n i : Nat) (p r : Byte) :
    f (gmulLoop b n i p r) = gmulLoop b n i (f p) (f r) := by
  induction n generalizing i p r with
  | zero => rfl
  | succ n ih => rw [gmulLoop, ih, hxtime, apply_ite f, hxor, gmulLoop]

/-- An additive map that commutes with xtime is linear over the field. -/
theorem map_gmul {f : Byte → Byte} (hxor : ∀ x y, f (x ^^^ y) = f x ^^^ f y)
    (hxtime : ∀ x, f (xtime x) = xtime (f x)) (a b : Byte) : f (gmul a b) = gmul (f a) b := by
  have hzero : f 0 = 0 := by simpa using hxor 0 0
  rw [gmul, map_gmulLoop hxor hxtime, hzero, gmul]

theorem xtime_gmul (a b : Byte) : gmul (xtime a) b = xtime (gmul a b) :=
  (map_gmul xtime_xor (fun _ => rfl) a b).symm

/-- Multiplication by `c` is itself linear, so two factors on the right change places. -/
theorem gmul_right_comm (a b c : Byte) : gmul (gmul a b) c = gmul (gmul a c) b :=
  map_gmul (f := (gmul · c)) (fun x y => xor_gmul x y c) (fun x => xtime_gmul x c) a b

theorem one_gmul : ∀ b : Byte, gmul 1 b = b := by decide

theorem gmul_comm (a b : Byte) : gmul a b = gmul b a := by
  simpa only [one_gmul] using gmul_right_comm 1 a b

/-! ### The commands XTIME and GMUL -/

theorem decodeFields_xtime (rnd : BitVec 4) (a b : Byte) :
    decodeFields 0x20 rnd a b = commandIf (rnd = 0 ∧ b = 0) (.xtime a) := rfl

theorem decodeFields_gmul (rnd : BitVec 4) (a b : Byte) :
    decodeFields 0x21 rnd a b = commandIf (rnd = 0) (.gmul a b) := rfl

theorem exec_xtime (a : Byte) (s : State) : exec (.xtime a) s = .next (retire (setGfres (xtime a) s)) := rfl

theorem exec_gmul (a b : Byte) (s : State) : exec (.gmul a b) s = .next (retire (setGfres (gmul a b) s)) := rfl

end Sys2Proof.Machine

section
open Sys2Proof Sys2Proof.Machine

/-- Settles O6: the loop is the sum of the `xtime^i(a)`, and the product does not depend on the operands' order. -/
theorem gmulCommandMultipliesIntoGfres : Obligations.GmulCommandMultipliesIntoGfres := by
  refine ⟨illegalWhenUnusedSet_of_decodeFields fun rnd a b i h => ?_, fun a b => ⟨?_, ?_, fun s => ⟨?_, ?_⟩⟩⟩
  · rw [decodeFields_gmul, commandIf_eq_command] at h
    simpa using h.1
  · simp [encode, commandWord]
  · exact acceptedWhenReady_of_unchecked rfl fun _ => rfl
  · rw [← gmul_eq_foldl]
    exact exec_gmul a b s
  · rw [exec_gmul, exec_gmul, gmul_comm]

/-- Settles O5: the second form of xtime (40_galois_field.md R101) is the first, bit by bit. -/
theorem xtimeCommandDoublesIntoGfres : Obligations.XtimeCommandDoublesIntoGfres := by
  refine ⟨illegalWhenUnusedSet_of_decodeFields fun rnd a b i h => ?_, fun a => ⟨?_, ?_, fun s => ?_⟩⟩
  · rw [decodeFields_xtime, commandIf_eq_command] at h
    simpa using h.1
  · simp [encode, commandWord]
  · exact acceptedWhenReady_of_unchecked rfl fun _ => rfl
  · rw [← xtime_eq_shiftLeft_xor]
    exact exec_xtime a s

end
end

section
/-! SUPPORT. The table lookup and the inverse contract of the two tables, and from them the statement about SBOX and ISBOX
(41_sbox.md R124, R125). -/

namespace Sys2Proof.Machine

/-! ### The tables -/

/-- A byte's row and column in a table are its high and its low nibble (41_sbox.md R120, R121). -/
theorem romEntry_eq_getD_nibbles (rows : List (List Byte)) (x : Byte) :
    romEntry rows x = (rows.getD (x.extractLsb' 4 4).toNat []).getD (x.extractLsb' 0 4).toNat 0 := by
  have hrow : (x.extractLsb' 4 4).toNat = x.toNat / 16 := by
    rw [BitVec.extractLsb'_toNat, Nat.shiftRight_eq_div_pow]
    exact Nat.mod_eq_of_lt (Nat.div_lt_of_lt_mul x.isLt)
  have hcol : (x.extractLsb' 0 4).toNat = x.toNat % 16 := BitVec.extractLsb'_toNat 0 4 x
  rw [romEntry, hrow, hcol]

/-- The inverse table undoes the forward one (41_sbox.md, the inverse contract). -/
@[simp] theorem isbox_sbox : ∀ x : Byte, isbox (sbox x) = x := by decide

/-! ### The commands SBOX and ISBOX -/

/-- An opcode whose only operand is `a` raises IllegalCommand on a word with another field set (30_encoding.md R84). -/
theorem illegalWhenUnusedSet_of_operand_a {op : Byte} {i : Byte → Instr}
    (h : ∀ rnd a b, decodeFields op rnd a b = commandIf (rnd = 0 ∧ b = 0) (i a)) :
    illegalWhenUnusedSet op false true false := by
  refine illegalWhenUnusedSet_of_decodeFields fun rnd a b j hj => ?_
  rw [h, commandIf_eq_command] at hj
  simpa using hj.1

theorem decodeFields_sbox (rnd : BitVec 4) (a b : Byte) :
    decodeFields 0x22 rnd a b = commandIf (rnd = 0 ∧ b = 0) (.sbox a) := rfl

theorem decodeFields_isbox (rnd : BitVec 4) (a b : Byte) :
    decodeFields 0x23 rnd a b = commandIf (rnd = 0 ∧ b = 0) (.isbox a) := rfl

theorem exec_sbox (a : Byte) (s : State) : exec (.sbox a) s = .next (retire (setGfres (sbox a) s)) := rfl

theorem exec_isbox (a : Byte) (s : State) : exec (.isbox a) s = .next (retire (setGfres (isbox a) s)) := rfl

/-- ISBOX of the GFRES that SBOX left gives the operand back (41_sbox.md R124, R125). -/
theorem gfres_of_sbox_isbox {x : Byte} {s t u : State} (ht : exec (.sbox x) s = .next t)
    (hu : exec (.isbox t.gfres) t = .next u) : u.gfres = x := by
  rw [exec_sbox] at ht
  cases ht
  rw [exec_isbox] at hu
  cases hu
  exact isbox_sbox x

end Sys2Proof.Machine

section
open Sys2Proof Sys2Proof.Machine

/-- Settles O9: GFRES gets the entry at the operand's nibbles, and the inverse table undoes the forward one. -/
theorem sboxCommandsLookUpIntoGfres : Obligations.SboxCommandsLookUpIntoGfres := by
  refine ⟨illegalWhenUnusedSet_of_operand_a decodeFields_sbox, illegalWhenUnusedSet_of_operand_a decodeFields_isbox,
    fun a => ⟨?_, ?_, ?_, ?_, fun s => ⟨?_, ?_⟩⟩, fun _ _ _ _ => gfres_of_sbox_isbox⟩
  · simp [encode, commandWord]
  · simp [encode, commandWord]
  · exact acceptedWhenReady_of_unchecked rfl fun _ => rfl
  · exact acceptedWhenReady_of_unchecked rfl fun _ => rfl
  · rw [← romEntry_eq_getD_nibbles]
    exact exec_sbox a s
  · rw [← romEntry_eq_getD_nibbles]
    exact exec_isbox a s

end
end

section
/-! SUPPORT. KEXP's check and its effect, the schedule word by word, and who writes W; from them the statements about
the key expansion (42_key_expansion.md). -/

namespace Sys2Proof.Machine

/-! ### A word offered to a ready core -/

/-- A ready core raises the error of the command's own check (45_control.md R190). -/
theorem offer_encode_error {i : Instr} {s : State} {e : ErrorName} (hs : ready s) (hwf : i.wellFormed = true)
    (he : acceptanceError i s = some e) : offer (encode i) s = raise e s := by
  obtain ⟨hb, herr, -⟩ := hs
  simp [offer, hb, herr, decode_encode hwf, he]

/-! ### The check of KEYLEN -/

theorem decodeFields_kexp (rnd : BitVec 4) (a b : Byte) :
    decodeFields 0x01 rnd a b = commandIf (rnd = 0 ∧ a = 0 ∧ b = 0) .kexp := rfl

theorem keyLengthError_of_legal {s : State} (h : legalKeyLength s.keylen = true) : keyLengthError s = none :=
  if_pos h

theorem keyLengthError_of_illegal {s : State} (h : legalKeyLength s.keylen = false) :
    keyLengthError s = some .invalidKeyLength := by
  simp [keyLengthError, h]

theorem legalKeyLength_eq_false {len : Byte} (h16 : len ≠ 16) (h24 : len ≠ 24) (h32 : len ≠ 32) :
    legalKeyLength len = false :=
  decide_eq_false (by simp only [h16, h24, h32, or_self, not_false_eq_true])

/-- Nk of the legal key lengths (42_key_expansion.md R130, R137). -/
theorem nkOf_of_keylen {len : Byte} {nk : Nat}
    (h : (nk = 4 ∧ len = 16) ∨ (nk = 6 ∧ len = 24) ∨ (nk = 8 ∧ len = 32)) :
    legalKeyLength len = true ∧ nkOf len = nk ∧ 1 ≤ nk ∧ nk ≤ 8 := by
  obtain ⟨rfl, rfl⟩ | ⟨rfl, rfl⟩ | ⟨rfl, rfl⟩ := h <;> decide

/-! ### The command KEXP -/

theorem exec_kexp_of_legal {s : State} (h : legalKeyLength s.keylen = true) :
    exec .kexp s = .next (retire (expandKey s)) := by
  rw [exec_eq, acceptanceError, keyLengthError_of_legal h]
  rfl

theorem exec_kexp_of_illegal {s : State} (h : legalKeyLength s.keylen = false) :
    exec .kexp s = .next (retire (raise .invalidKeyLength s)) := by
  rw [exec_eq, acceptanceError, keyLengthError_of_illegal h]
  rfl

/-- KEXP offered with an illegal KEYLEN (42_key_expansion.md R135, R138). -/
theorem offer_kexp_of_illegal {s : State} (hs : ready s) (h : legalKeyLength s.keylen = false) :
    offer 0x00000001 s = raise .invalidKeyLength s :=
  offer_encode_error (i := .kexp) hs rfl (keyLengthError_of_illegal h)

@[simp] theorem raise_invalidKeyLength_W (s : State) :
    (raise .invalidKeyLength s).W = Vector.replicate 60 quadZero := rfl

@[simp] theorem raise_invalidKeyLength_status (s : State) :
    (raise .invalidKeyLength s).status =
      { s.status with valid := false, err := if s.status.err = 0 then 1 else s.status.err, nk := 0, nr := 0 } := rfl

/-- KEXP's effect and its retirement as one next state (42_key_expansion.md R137). -/
theorem retire_expandKey (s : State) :
    retire (expandKey s) =
      { s with W := roundKeyFile (expand (masterKey s (nkOf s.keylen)) (nkOf s.keylen)), pend := none,
               status := { s.status with busy := false, valid := true, nk := BitVec.ofNat 4 (nkOf s.keylen),
                                         nr := BitVec.ofNat 4 (nkOf s.keylen + 6) } } := by
  simp only [expandKey, setRoundKeys, retire, nrOf]

theorem roundKeyFile_getElem (w : List Quad) (i : Fin 60) : (roundKeyFile w)[i] = w.getD i.val quadZero := by
  simp [roundKeyFile]

/-! ### The key bytes that are read -/

theorem masterKey_length (s : State) (nk : Nat) : (masterKey s nk).length = min nk 8 := by
  simp [masterKey]

/-- The first `nk` key words are decided by the first `4·nk` key bytes (42_key_expansion.md R136). -/
theorem masterKey_congr {s s' : State} {nk : Nat}
    (h : ∀ j : Fin 32, j.val < 4 * nk → keyByte s j = keyByte s' j) : masterKey s nk = masterKey s' nk := by
  refine List.ext_getElem (by rw [masterKey_length, masterKey_length]) fun i hi hi' => ?_
  have hi8 : i < nk ∧ i < 8 := by rwa [masterKey_length, lt_min_iff] at hi
  refine quad_ext _ _ fun b => ?_
  let j : Fin 32 := ⟨4 * i + b.val, by omega⟩
  have hbyte (u : State) (hu : i < (masterKey u nk).length) :
        quadGet (masterKey u nk)[i] b = keyByte u j := by
    have hdiv : j.val / 4 = i := by simp only [j]; omega
    have hmod : Fin.ofNat 4 j.val = b := Fin.ext (by simp [j])
    rw [← masterKey_byte u nk j (by simp only [j]; omega), hdiv, hmod, List.getD_eq_getElem _ _ hu]
  rw [hbyte s, hbyte s', h j (by simp only [j]; omega)]

/-- KEXP with any KEYLEN reads no key byte at or past KEYLEN (42_key_expansion.md R136). -/
theorem masterKey_nkOf_congr {s s' : State} {len : Byte}
    (h : ∀ j : Fin 32, j.val < len.toNat → keyByte s j = keyByte s' j) :
    masterKey s (nkOf len) = masterKey s' (nkOf len) :=
  masterKey_congr fun j hj => h j (hj.trans_le (Nat.mul_div_le len.toNat 4))

/-! ### The words of the schedule (42_key_expansion.md R134) -/

section
variable {key : List Quad} {nk : Nat} (hkey : key.length = nk)
include hkey

theorem expand_length : (expand key nk).length = 4 * (nk + 7) := by
  rw [expand, expandLoop_length, nrOf, hkey]
  omega

theorem expand_getD_key {i : Nat} (hi : i < nk) : (expand key nk).getD i quadZero = key.getD i quadZero :=
  expandLoop_old _ _ _ _ _ (hkey ▸ hi)

theorem expand_getD_recurrence (hk : 1 ≤ nk) {i : Nat} (hi : nk ≤ i) (hend : i < 4 * (nk + 7)) :
    (expand key nk).getD i quadZero =
      quadXor ((expand key nk).getD (i - nk) quadZero)
        (scheduleTemp nk i ((expand key nk).getD (i - 1) quadZero)) :=
  expandLoop_new nk hk _ nk key hkey le_rfl i hi (by rw [nrOf]; omega)

theorem expand_getD_end {i : Nat} (hi : 4 * (nk + 7) ≤ i) : (expand key nk).getD i quadZero = quadZero :=
  List.getD_eq_default _ _ (expand_length hkey ▸ hi)

end

theorem scheduleTemp_of_mod_eq_zero {nk i : Nat} (prev : Quad) (h : i % nk = 0) :
    scheduleTemp nk i prev =
      ⟨sbox prev.b1 ^^^ rconTable.getD (i / nk - 1) 0, sbox prev.b2, sbox prev.b3, sbox prev.b0⟩ := by
  simp [scheduleTemp, h, quadXor, subWord, quadMap, rotWord, rcon]

theorem scheduleTemp_of_mod_eq_four {nk i : Nat} (prev : Quad) (h0 : i % nk ≠ 0) (h4 : nk = 8 ∧ i % nk = 4) :
    scheduleTemp nk i prev = ⟨sbox prev.b0, sbox prev.b1, sbox prev.b2, sbox prev.b3⟩ := by
  rw [scheduleTemp, if_neg h0, if_pos h4]
  rfl

theorem scheduleTemp_of_other {nk i : Nat} (prev : Quad) (h0 : i % nk ≠ 0) (h4 : ¬(nk = 8 ∧ i % nk = 4)) :
    scheduleTemp nk i prev = prev := by
  rw [scheduleTemp, if_neg h0, if_neg h4]

/-! ### Who writes W -/

theorem regAt_eq_cmd_iff {off : BitVec 12} (h4 : off.toNat % 4 = 0) : regAt off = .cmd ↔ off = 0x000 := by
  refine ⟨fun h => ?_, fun h => h ▸ regAt_cmd⟩
  rcases regAt_cases off h4 with ⟨ho, _⟩ | ⟨_, hr⟩ | ⟨_, hr⟩ | ⟨_, hr⟩ | ⟨_, _, _, hr⟩ | ⟨_, _, _, hr⟩ |
    ⟨_, _, _, hr⟩ | ⟨_, hr⟩
  · exact ho
  all_goals rw [hr] at h; cases h

theorem writeUnlessBusy_W (f : State → State) (s : State) (hf : (f s).W = s.W) : (writeUnlessBusy f s).W = s.W := by
  unfold writeUnlessBusy
  split
  · rfl
  · exact hf

/-- No register but CMD passes a write on to W (10_state.md R25, R34). -/
theorem writeReg_W {r : Reg} (hr : r ≠ .cmd) (v : Word) (s : State) : (writeReg r v s).W = s.W := by
  cases r with
  | cmd => exact absurd rfl hr
  | status => rw [writeReg_status]
  | keylen | state | key => exact writeUnlessBusy_W _ s rfl
  | gfres | rkw | reserved => rfl

theorem hostStep_write_W {off : BitVec 12} {v : Word} {s t : State} (hoff : off ≠ 0x000)
    (h : hostStep (.write .w32 off v) s = .next t) : t.W = s.W := by
  obtain ⟨_, hread, -⟩ | ⟨_, _, hwrite, h4, rfl⟩ := hostStep_cases h
  · cases hread
  · cases hwrite
    exact writeReg_W (mt (regAt_eq_cmd_iff h4).1 hoff) v s

end Sys2Proof.Machine

section
open Sys2Proof Sys2Proof.Machine

/-- Settles O13: the key words that the expansion starts from are decided by the key bytes below KEYLEN. -/
theorem kexpReadsNoKeyByteBeyondKeylen : Obligations.KexpReadsNoKeyByteBeyondKeylen := by
  intro s s' t t' hlen hbytes ht ht'
  cases hlegal : legalKeyLength s.keylen with
  | false =>
    rw [exec_kexp_of_illegal hlegal] at ht
    rw [exec_kexp_of_illegal (hlen ▸ hlegal)] at ht'
    cases ht
    cases ht'
    simp
  | true =>
    rw [exec_kexp_of_legal hlegal] at ht
    rw [exec_kexp_of_legal (hlen ▸ hlegal)] at ht'
    cases ht
    cases ht'
    simp [expandKey, ← hlen, masterKey_nkOf_congr hbytes]

/-- Settles O12: the error that the ready core raises is the one that wipes the RoundKeySet. -/
theorem kexpWithIllegalLengthWipesTheKeySet : Obligations.KexpWithIllegalLengthWipesTheKeySet := by
  intro s h16 h24 h32 hs
  rw [offer_kexp_of_illegal hs (legalKeyLength_eq_false h16 h24 h32)]
  obtain ⟨hb, herr, -⟩ := hs
  simp [raise, recordError, wipeRoundKeys, errorCode, quadZero, hb, herr]

/-- Settles O11: the words of W are those of `expand`, which follow the recurrence of R134. -/
theorem kexpExpandsTheMasterKey : Obligations.KexpExpandsTheMasterKey := by
  refine ⟨rfl, illegalWhenUnusedSet_of_decodeFields fun rnd a b i h => ?_, fun s hs h16 h24 h32 => ?_,
    fun u t off v hoff h => hostStep_write_W hoff h, fun s nk hlen => ?_⟩
  · rw [decodeFields_kexp, commandIf_eq_command] at h
    simpa using h.1
  · rw [kexpWithIllegalLengthWipesTheKeySet s h16 h24 h32 hs]
  · obtain ⟨hlegal, hnk, hpos, hmax⟩ := nkOf_of_keylen hlen
    have hkey := (masterKey_length s nk).trans (min_eq_left hmax)
    refine ⟨fun hs => offer_encode (i := .kexp) hs rfl (keyLengthError_of_legal hlegal),
      roundKeyFile (expand (masterKey s nk) nk), ((expand (masterKey s nk) nk).getD · quadZero),
      fun i => (roundKeyFile_getElem _ i).symm, ?_, fun j hj => ?_, fun i hi hend => ?_,
      fun i hi _ => expand_getD_end hkey hi⟩
    · rw [exec_kexp_of_legal hlegal, retire_expandKey, hnk]
    · exact (congrArg (quadGet · _) (expand_getD_key hkey (by omega))).trans (masterKey_byte s nk j hj)
    · exact ⟨_, scheduleTemp nk i _, rfl, scheduleTemp_of_mod_eq_zero _, scheduleTemp_of_mod_eq_four _,
        scheduleTemp_of_other _, expand_getD_recurrence hkey hpos hi hend⟩

end
end

section
/-! SUPPORT. The checks of ARK, the seven round operations by row and column, and the datapath's multiples as products; from
them the statements about the round commands (43_round_ops.md). -/

namespace Sys2Proof.Machine

/-! ### A command's word and its effect -/

/-- An opcode without operands raises IllegalCommand on a word with another field set (30_encoding.md R84). -/
theorem illegalWhenUnusedSet_of_no_operand {op : Byte} {i : Instr}
    (h : ∀ rnd a b, decodeFields op rnd a b = commandIf (rnd = 0 ∧ a = 0 ∧ b = 0) i) :
    illegalWhenUnusedSet op false false false := by
  refine illegalWhenUnusedSet_of_decodeFields fun rnd a b j hj => ?_
  rw [h, commandIf_eq_command] at hj
  simpa using hj.1

/-- A command whose checks pass writes its effect and retires (45_control.md R193). -/
theorem exec_of_passed {i : Instr} {s : State} (h : acceptanceError i s = none) :
    exec i s = .next (retire (effectOf i s)) := by
  rw [exec_eq, h, runCommand_passed]

/-- With no error recorded yet, the code goes into ERR and nothing else changes (60_exceptions.md R203). -/
theorem recordError_of_ready {s : State} (e : ErrorName) (hs : ready s) :
    recordError e s = { s with status := { s.status with err := errorCode e } } := by
  obtain ⟨-, herr, -⟩ := hs
  simp [recordError, herr]

theorem decodeFields_ark (rnd : BitVec 4) (a b : Byte) :
    decodeFields 0x10 rnd a b = commandIf (a = 0 ∧ b = 0) (.ark rnd.toNat) := rfl

theorem wellFormed_ark {r : Nat} (hr : r ≤ 15) : (Instr.ark r).wellFormed = true := decide_eq_true hr

/-- The word of ARK carries its round index in bits 11:8 (30_encoding.md R83). -/
theorem encode_ark {r : Nat} (hr : r ≤ 15) : encode (.ark r) = 0x00000010 ||| (BitVec.ofNat 32 r <<< 8) := by
  have hrnd : (BitVec.ofNat 4 r).setWidth 32 = BitVec.ofNat 32 r := by
    apply BitVec.eq_of_toNat_eq
    rw [BitVec.toNat_setWidth, BitVec.toNat_ofNat, BitVec.toNat_ofNat]
    omega
  simp [encode, commandWord, hrnd]

/-! ### The checks of ARK (R158) -/

section
variable {s : State} {r : Nat}

theorem roundIndexError_of_legal (hv : s.status.valid = true) (hr : r ≤ s.status.nr.toNat) :
    roundIndexError r s = none := by
  simp [roundIndexError, roundKeysError, roundCount, hv, hr]

theorem roundIndexError_of_invalid (hv : s.status.valid = false) : roundIndexError r s = some .noRoundKeys := by
  simp [roundIndexError, roundKeysError, hv]

theorem roundIndexError_of_lt (hv : s.status.valid = true) (hr : s.status.nr.toNat < r) :
    roundIndexError r s = some .roundOutOfRange := by
  simp [roundIndexError, roundKeysError, roundCount, hv, hr.not_ge]

/-- ARK offered beyond the last round (43_round_ops.md R158). -/
theorem offer_ark_of_lt (hs : ready s) (h15 : r ≤ 15) (hv : s.status.valid = true) (hr : s.status.nr.toNat < r) :
    offer (encode (.ark r)) s = { s with status := { s.status with err := 3 } } :=
  (offer_encode_error hs (wellFormed_ark h15) (roundIndexError_of_lt hv hr)).trans
    (recordError_of_ready .roundOutOfRange hs)

/-- Nr is at most 14, the count of the longest key (42_key_expansion.md R130, 10_state.md R33). -/
theorem Consistent.nr_le (h : Consistent s) : s.status.nr.toNat ≤ 14 := by
  obtain ⟨-, -, hnr, -⟩ | ⟨-, nk, -, hnk, -, -, hnr, -⟩ := h.keySet
  · simp [hnr]
  · omega

end

/-! ### The round operations by row and column (R150 to R154) -/

section
variable (T k : Block) (r c : Fin 4)

@[simp] theorem blockGet_addRoundKey : blockGet (addRoundKey T k) r c = blockGet T r c ^^^ blockGet k r c :=
  blockGet_blockOf _ r c

@[simp] theorem blockGet_subBytes : blockGet (subBytes T) r c = sbox (blockGet T r c) := blockGet_blockOf _ r c

@[simp] theorem blockGet_invSubBytes : blockGet (invSubBytes T) r c = isbox (blockGet T r c) :=
  blockGet_blockOf _ r c

@[simp] theorem blockGet_shiftRows : blockGet (shiftRows T) r c = blockGet T r (c + r) := blockGet_blockOf _ r c

@[simp] theorem blockGet_invShiftRows : blockGet (invShiftRows T) r c = blockGet T r (c - r) := by
  have hcol : (c.val + 4 - r.val) % 4 = (c - r).val := by
    rw [Fin.val_sub]
    omega
  rw [invShiftRows, blockGet_blockOf]
  exact congrArg (blockGet T r) (Fin.ext hcol)

/-- `RK(r)` by row and column (10_state.md R26). -/
theorem blockGet_roundKey (s : State) (n : Nat) :
    blockGet (roundKey s n) r c = quadGet (roundKeyWord s (4 * n + c.val)) r :=
  congrArg (quadGet · r) (blockColumn_roundKey s n c)

end

/-- Serialized byte `k` of ShiftRows is the old byte in row `k mod 4`, `k mod 4` columns on (43_round_ops.md R153). -/
theorem stateToBytes_shiftRows (T : Block) {j k : Fin 16}
    (h : j.val % 4 = k.val % 4 ∧ j.val / 4 = (k.val / 4 + k.val % 4) % 4) :
    stateToBytes (shiftRows T) k = stateToBytes T j := by
  rw [stateToBytes, blockGet_shiftRows, stateToBytes]
  exact congrArg₂ (blockGet T) (Fin.ext h.1.symm) (Fin.ext h.2.symm)

/-- Serialized byte `k` of InvShiftRows is the old byte in row `k mod 4`, `k mod 4` columns back (43_round_ops.md R154). -/
theorem stateToBytes_invShiftRows (T : Block) {j k : Fin 16}
    (h : j.val % 4 = k.val % 4 ∧ j.val / 4 = (4 - k.val % 4 + k.val / 4) % 4) :
    stateToBytes (invShiftRows T) k = stateToBytes T j := by
  rw [stateToBytes, blockGet_invShiftRows, stateToBytes]
  exact congrArg₂ (blockGet T) (Fin.ext h.1.symm) (Fin.ext h.2.symm)

/-! ### The datapath's multiples are products (40_galois_field.md R103)

Each factor is a sum of powers of 2, and each power of 2 is xtime of the one before. -/

section
variable (b : Byte)

theorem two_gmul : gmul 2 b = times2 b := by
  rw [show (2 : Byte) = xtime 1 from rfl, xtime_gmul, one_gmul, times2]

theorem four_gmul : gmul 4 b = xtime (xtime b) := by
  rw [show (4 : Byte) = xtime 2 from rfl, xtime_gmul, two_gmul, times2]

theorem eight_gmul : gmul 8 b = xtime (xtime (xtime b)) := by
  rw [show (8 : Byte) = xtime 4 from rfl, xtime_gmul, four_gmul]

theorem three_gmul : gmul 3 b = times3 b := by
  rw [show (3 : Byte) = 2 ^^^ 1 from rfl, xor_gmul, two_gmul, one_gmul, times2, times3]

theorem nine_gmul : gmul 9 b = times9 b := by
  rw [show (9 : Byte) = 8 ^^^ 1 from rfl, xor_gmul, eight_gmul, one_gmul, times9]

theorem eleven_gmul : gmul 11 b = times11 b := by
  rw [show (11 : Byte) = 8 ^^^ 2 ^^^ 1 from rfl, xor_gmul, xor_gmul, eight_gmul, two_gmul, one_gmul, times2, times11]

theorem thirteen_gmul : gmul 13 b = times13 b := by
  rw [show (13 : Byte) = 8 ^^^ 4 ^^^ 1 from rfl, xor_gmul, xor_gmul, eight_gmul, four_gmul, one_gmul, times13]

theorem fourteen_gmul : gmul 14 b = times14 b := by
  rw [show (14 : Byte) = 8 ^^^ 4 ^^^ 2 from rfl, xor_gmul, xor_gmul, eight_gmul, four_gmul, two_gmul, times2, times14]

end

/-! ### The column matrices (R155, R156) -/

section
variable (T : Block) (r c : Fin 4)

theorem blockGet_mixColumns : blockGet (mixColumns T) r c = quadGet (mixColumn (blockColumn T c)) r :=
  congrArg (quadGet · r) (blockColumn_blockMapColumns mixColumn T c)

theorem blockGet_invMixColumns : blockGet (invMixColumns T) r c = quadGet (invMixColumn (blockColumn T c)) r :=
  congrArg (quadGet · r) (blockColumn_blockMapColumns invMixColumn T c)

end

/-- MixColumns multiplies a column by the matrix of 43_round_ops.md R155. -/
theorem mixColumn_eq_products (a : Quad) : mixColumn a =
    ⟨gmul 2 a.b0 ^^^ gmul 3 a.b1 ^^^ gmul 1 a.b2 ^^^ gmul 1 a.b3,
     gmul 1 a.b0 ^^^ gmul 2 a.b1 ^^^ gmul 3 a.b2 ^^^ gmul 1 a.b3,
     gmul 1 a.b0 ^^^ gmul 1 a.b1 ^^^ gmul 2 a.b2 ^^^ gmul 3 a.b3,
     gmul 3 a.b0 ^^^ gmul 1 a.b1 ^^^ gmul 1 a.b2 ^^^ gmul 2 a.b3⟩ := by
  simp only [one_gmul, two_gmul, three_gmul, mixColumn]

/-- InvMixColumns multiplies a column by the matrix of 43_round_ops.md R156. -/
theorem invMixColumn_eq_products (a : Quad) : invMixColumn a =
    ⟨gmul 14 a.b0 ^^^ gmul 11 a.b1 ^^^ gmul 13 a.b2 ^^^ gmul 9 a.b3,
     gmul 9 a.b0 ^^^ gmul 14 a.b1 ^^^ gmul 11 a.b2 ^^^ gmul 13 a.b3,
     gmul 13 a.b0 ^^^ gmul 9 a.b1 ^^^ gmul 14 a.b2 ^^^ gmul 11 a.b3,
     gmul 11 a.b0 ^^^ gmul 13 a.b1 ^^^ gmul 9 a.b2 ^^^ gmul 14 a.b3⟩ := by
  simp only [nine_gmul, eleven_gmul, thirteen_gmul, fourteen_gmul, invMixColumn]

end Sys2Proof.Machine

section
open Sys2Proof Sys2Proof.Machine

/-- Settles O15: the checks of ARK decide between acceptance and each error, and `RK(r)` is four words of W. -/
theorem arkXorsTheRoundKey : Obligations.ArkXorsTheRoundKey := by
  refine ⟨illegalWhenUnusedSet_of_decodeFields fun rnd a b i h => ?_, fun s hc hs hv => ?_, fun r h15 =>
    ⟨encode_ark h15, fun s => ⟨fun hv hr => ?_, fun hv hs => ?_, fun hv hr hs => offer_ark_of_lt hs h15 hv hr⟩⟩⟩
  · rw [decodeFields_ark, commandIf_eq_command] at h
    simpa using h.1
  · exact offer_ark_of_lt (r := 15) hs le_rfl hv (Nat.lt_succ_of_le hc.nr_le)
  · have hpass : acceptanceError (.ark r) s = none := roundIndexError_of_legal hv hr
    refine ⟨fun hs => offer_encode hs (wellFormed_ark h15) hpass, addRoundKey s.S (roundKey s r), fun i c => ?_,
      exec_of_passed hpass⟩
    rw [blockGet_addRoundKey, blockGet_roundKey]
  · exact (offer_encode_error hs (wellFormed_ark h15) (roundIndexError_of_invalid hv)).trans
      (recordError_of_ready .noRoundKeys hs)

/-- Settles O18: the two matrices of the datapath, column by column, with each multiple a product. -/
theorem mixColumnsCommandsMultiplyEachColumn : Obligations.MixColumnsCommandsMultiplyEachColumn := by
  refine ⟨rfl, rfl, acceptedWhenReady_of_unchecked rfl fun _ => rfl, acceptedWhenReady_of_unchecked rfl fun _ => rfl,
    illegalWhenUnusedSet_of_no_operand (i := .mc) fun _ _ _ => rfl,
    illegalWhenUnusedSet_of_no_operand (i := .imc) fun _ _ _ => rfl,
    fun s => ⟨⟨mixColumns s.S, fun c => ?_, exec_of_passed rfl⟩, invMixColumns s.S, fun c => ?_, exec_of_passed rfl⟩⟩
  · have hrow := (blockGet_mixColumns s.S · c)
    rw [mixColumn_eq_products] at hrow
    exact ⟨(blockGet s.S · c), fun _ => rfl, hrow 0, hrow 1, hrow 2, hrow 3⟩
  · have hrow := (blockGet_invMixColumns s.S · c)
    rw [invMixColumn_eq_products] at hrow
    exact ⟨(blockGet s.S · c), fun _ => rfl, hrow 0, hrow 1, hrow 2, hrow 3⟩

/-- Settles O16: SubBytes and InvSubBytes byte by byte. -/
theorem subBytesCommandsMapEachByte : Obligations.SubBytesCommandsMapEachByte :=
  ⟨rfl, rfl, acceptedWhenReady_of_unchecked rfl fun _ => rfl, acceptedWhenReady_of_unchecked rfl fun _ => rfl,
   illegalWhenUnusedSet_of_no_operand (i := .sb) fun _ _ _ => rfl,
   illegalWhenUnusedSet_of_no_operand (i := .isb) fun _ _ _ => rfl,
   fun s => ⟨⟨subBytes s.S, blockGet_subBytes s.S, exec_of_passed rfl⟩,
     invSubBytes s.S, blockGet_invSubBytes s.S, exec_of_passed rfl⟩⟩

/-- Settles O17: the rows rotate, and P_SR and P_ISR name the row and column that each serialized byte comes from. -/
theorem shiftRowsCommandsRotateTheRows : Obligations.ShiftRowsCommandsRotateTheRows := by
  refine ⟨rfl, rfl, acceptedWhenReady_of_unchecked rfl fun _ => rfl, acceptedWhenReady_of_unchecked rfl fun _ => rfl,
    illegalWhenUnusedSet_of_no_operand (i := .sr) fun _ _ _ => rfl,
    illegalWhenUnusedSet_of_no_operand (i := .isr) fun _ _ _ => rfl,
    fun s => ⟨⟨shiftRows s.S, blockGet_shiftRows s.S, fun k => stateToBytes_shiftRows s.S ?_, exec_of_passed rfl⟩,
      invShiftRows s.S, blockGet_invShiftRows s.S, fun k => stateToBytes_invShiftRows s.S ?_, exec_of_passed rfl⟩⟩
  · revert k
    decide
  · revert k
    decide

end
end

section
/-! SUPPORT. The check that ENC and DEC share, and the rounds of the cipher and its inverse as folds over the round indices;
from them the statements about ENC and DEC (44_block_transform.md). -/

namespace Sys2Proof.Machine

/-! ### The check of STATUS.VALID (60_exceptions.md R201) -/

theorem roundKeysError_of_valid {s : State} (hv : s.status.valid = true) : roundKeysError s = none := if_pos hv

theorem roundKeysError_of_invalid {s : State} (hv : s.status.valid = false) : roundKeysError s = some .noRoundKeys := by
  simp [roundKeysError, hv]

/-- A command that needs a RoundKeySet, offered without one, records code 2 and changes nothing else
(60_exceptions.md R201). -/
theorem offer_encode_noRoundKeys {i : Instr} {s : State} (hs : ready s) (hwf : i.wellFormed = true)
    (he : acceptanceError i s = some .noRoundKeys) :
    offer (encode i) s = { s with status := { s.status with err := 2 } } :=
  (offer_encode_error hs hwf he).trans (recordError_of_ready .noRoundKeys hs)

/-! ### The middle rounds in order (44_block_transform.md R180, R182) -/

section
variable (rk : Nat → Block)

/-- ENC's middle rounds take the round indices `r, r+1, .., r+n-1`. -/
theorem encRounds_eq_foldl (n r : Nat) (T : Block) :
    encRounds rk n r T = (List.range' r n).foldl (fun T round => encRound (rk round) T) T := by
  induction n generalizing r T with
  | zero => rfl
  | succ n ih => rw [encRounds, ih, List.range'_succ, List.foldl_cons]

/-- DEC's middle rounds take the round indices `n, n-1, .., 1`. -/
theorem decRounds_eq_foldl (n : Nat) (T : Block) :
    decRounds rk n T = (List.range' 1 n).reverse.foldl (fun T round => decRound (rk round) T) T := by
  induction n generalizing T with
  | zero => rfl
  | succ n ih => rw [decRounds, ih, List.range'_1_concat, List.reverse_concat, List.foldl_cons, Nat.add_comm 1 n]

end

end Sys2Proof.Machine

section
open Sys2Proof Sys2Proof.Machine

/-- Settles O20: the check of VALID decides between acceptance and error 2, and ENC's rounds run upwards. -/
theorem encRunsTheCipherRounds : Obligations.EncRunsTheCipherRounds := by
  refine ⟨rfl, illegalWhenUnusedSet_of_no_operand (i := .enc) fun _ _ _ => rfl,
    fun s hs hv => offer_encode_noRoundKeys (i := .enc) hs rfl (roundKeysError_of_invalid hv), fun s hv => ?_⟩
  have hpass : acceptanceError .enc s = none := roundKeysError_of_valid hv
  exact ⟨fun hs => offer_encode hs rfl hpass, _, _, _, rfl, encRounds_eq_foldl (roundKey s) _ 1 _, rfl,
    exec_of_passed hpass⟩

/-- Settles O21: the check of VALID decides between acceptance and error 2, and DEC's rounds run downwards. -/
theorem decRunsTheInverseRounds : Obligations.DecRunsTheInverseRounds := by
  refine ⟨rfl, illegalWhenUnusedSet_of_no_operand (i := .dec) fun _ _ _ => rfl,
    fun s hs hv => offer_encode_noRoundKeys (i := .dec) hs rfl (roundKeysError_of_invalid hv), fun s hv => ?_⟩
  have hpass : acceptanceError .dec s = none := roundKeysError_of_valid hv
  exact ⟨fun hs => offer_encode hs rfl hpass, _, _, _, rfl, decRounds_eq_foldl (roundKey s) _ _, rfl,
    exec_of_passed hpass⟩

end
end

section
/-! SUPPORT. A word offered to an idle core without an error, whatever PEND holds; the host's accesses while a command is
pending; the core's turn for a command whose checks hold. From them the statements about command issue (45_control.md). -/

namespace Sys2Proof.Machine

/-! ### A word offered to an idle core without an error (45_control.md R190) -/

section
variable {w : Word} {s : State}

theorem recordError_of_no_error (e : ErrorName) (he : s.status.err = 0) :
    recordError e s = { s with status := { s.status with err := errorCode e } } := by
  rw [recordError, if_pos he]

/-- InvalidKeyLength adds the wipe of the RoundKeySet to its code (42_key_expansion.md R138). -/
theorem raise_invalidKeyLength_of_idle (hb : s.status.busy = false) (he : s.status.err = 0) :
    raise .invalidKeyLength s =
      { s with W := Vector.replicate 60 quadZero,
               status := { busy := false, valid := false, err := 1, nk := 0, nr := 0 } } := by
  simp [raise, recordError, wipeRoundKeys, errorCode, hb, he]

theorem offer_idle_illegal {why : Illegal} (hb : s.status.busy = false) (he : s.status.err = 0)
    (hd : decode w = .illegal why) : offer w s = raise .illegalCommand s := by
  simp [offer, hb, he, hd]

theorem offer_idle_failed {i : Instr} {e : ErrorName} (hb : s.status.busy = false) (he : s.status.err = 0)
    (hd : decode w = .command i) (ha : acceptanceError i s = some e) : offer w s = raise e s := by
  simp [offer, hb, he, hd, ha]

theorem offer_idle_passed {i : Instr} (hb : s.status.busy = false) (he : s.status.err = 0)
    (hd : decode w = .command i) (ha : acceptanceError i s = none) : offer w s = accept w s := by
  simp [offer, hb, he, hd, ha]

end

/-! ### The command's own check -/

section
variable {i : Instr} {s : State}

theorem acceptanceError_of_no_roundKeys (hi : i = .enc ∨ i = .dec ∨ ∃ r, i = .ark r) (hv : s.status.valid = false) :
    acceptanceError i s = some .noRoundKeys := by
  obtain rfl | rfl | ⟨r, rfl⟩ := hi
  · exact roundKeysError_of_invalid hv
  · exact roundKeysError_of_invalid hv
  · exact roundIndexError_of_invalid hv

theorem acceptanceError_eq_none (hkexp : i = .kexp → s.keylen = 16 ∨ s.keylen = 24 ∨ s.keylen = 32)
    (hblock : i = .enc ∨ i = .dec → s.status.valid = true)
    (hark : ∀ r, i = .ark r → s.status.valid = true ∧ r ≤ s.status.nr.toNat) : acceptanceError i s = none := by
  cases i with
  | kexp => exact keyLengthError_of_legal (decide_eq_true (hkexp rfl))
  | enc => exact roundKeysError_of_valid (hblock (.inl rfl))
  | dec => exact roundKeysError_of_valid (hblock (.inr rfl))
  | ark r =>
    obtain ⟨hv, hr⟩ := hark r rfl
    exact roundIndexError_of_legal hv hr
  | nop | sb | isb | sr | isr | mc | imc | xtime | gmul | sbox | isbox => rfl

end

/-! ### While a command is pending -/

/-- A write to any register while BUSY = 1 reaches nothing but ERR (70_reset_and_hazards.md R241, 20_memory.md R58). -/
theorem writeReg_busy (r : Reg) (v : Word) {s : State} (hb : s.status.busy = true) :
    ∃ e, writeReg r v s = { s with status := { s.status with err := e } } := by
  cases r with
  | cmd | keylen | state | key => exact ⟨_, writeReg_dropped v hb rfl⟩
  | status => exact ⟨_, writeReg_status v s⟩
  | gfres | rkw | reserved => exact ⟨s.status.err, rfl⟩

/-- The host reaches nothing but ERR while BUSY = 1; the bus's answer and the count of draws are the model's own
(10_state.md R41). -/
theorem hostStep_busy {a : Access} {s t : State} (hb : s.status.busy = true) (h : hostStep a s = .next t) :
    ∃ e r d, t = { s with status := { s.status with err := e }, reply := r, draws := d } := by
  obtain ⟨off, -, -, rfl⟩ | ⟨off, v, -, -, rfl⟩ := hostStep_cases h
  · exact ⟨s.status.err, _, _, hostRead_frame (regAt off) s⟩
  · obtain ⟨e, hw⟩ := writeReg_busy (regAt off) v hb
    exact ⟨e, .done, s.draws, by rw [hostWrite, hw]; rfl⟩

theorem coreStep_of_command {w : Word} {i : Instr} {s : State} (hp : s.pend = some w) (hd : decode w = .command i) :
    coreStep s = exec i s := by
  simp [coreStep, hp, hd]

/-- No command's effect writes ERR (45_control.md R193). -/
theorem effectOf_err (i : Instr) (s : State) : (effectOf i s).status.err = s.status.err := by
  obtain ⟨-, -, -, -, -, -, -, herr, -⟩ := effectOf_frame i s
  exact herr

end Sys2Proof.Machine

section
open Sys2Proof Sys2Proof.Machine

/-- Settles O25: which check fails first decides between each error and acceptance. -/
theorem commandWriteIsCheckedInOrder : Obligations.CommandWriteIsCheckedInOrder := by
  refine fun w s => ⟨offer_busy w s, offer_blocked w s, fun hb he => ⟨fun hno => ?_, fun i hd =>
    ⟨fun hi h16 h24 h32 => ?_, fun hi hv => ?_, fun r hi hv hr => ?_, fun hkexp hblock hark => ?_⟩⟩⟩
  · cases hd : decode w with
    | command i => exact absurd hd (hno i)
    | illegal why => exact (offer_idle_illegal hb he hd).trans (recordError_of_no_error .illegalCommand he)
  · subst hi
    exact (offer_idle_failed hb he hd (keyLengthError_of_illegal (legalKeyLength_eq_false h16 h24 h32))).trans
      (raise_invalidKeyLength_of_idle hb he)
  · exact (offer_idle_failed hb he hd (acceptanceError_of_no_roundKeys hi hv)).trans
      (recordError_of_no_error .noRoundKeys he)
  · subst hi
    exact (offer_idle_failed hb he hd (roundIndexError_of_lt hv hr)).trans
      (recordError_of_no_error .roundOutOfRange he)
  · exact offer_idle_passed hb he hd (acceptanceError_eq_none hkexp hblock hark)

/-- Settles O26: the host reaches only ERR while BUSY = 1, and the invariant says that the pending word's checks hold, so
its completion is the effect and the retirement. -/
theorem acceptedCommandCannotFail : Obligations.AcceptedCommandCannotFail := by
  refine ⟨fun w s => rfl, fun a s t hb h => ?_, fun w s hc hp => ?_⟩
  · obtain ⟨e, r, d, rfl⟩ := hostStep_busy hb h
    exact ⟨rfl, rfl, rfl, rfl, rfl, rfl, rfl, hb⟩
  · obtain ⟨i, hd, hpass⟩ := hc.pending w hp
    have hexec := exec_of_passed hpass
    exact ⟨i, retire (effectOf i s), hd, (coreStep_of_command hp hd).trans hexec, hexec, rfl, rfl, effectOf_err i s⟩

/-- Settles O24: NOP has no check and no effect, and its word goes through the same checks as every other. -/
theorem nopOnlyRetires : Obligations.NopOnlyRetires :=
  ⟨rfl, acceptedWhenReady_of_unchecked rfl fun _ => rfl,
   illegalWhenUnusedSet_of_no_operand (i := .nop) fun _ _ _ => rfl,
   fun _ => exec_of_passed (i := .nop) rfl, offer_blocked 0x00000000, offer_busy 0x00000000⟩

end
end

section
/-! SUPPORT. What a word offered to an idle core without an error can do, as whole next states; the core's turn under the
invariant; the data registers after a write, as register values. From them the statements about errors
(60_exceptions.md). -/

namespace Sys2Proof.Machine

/-! ### A failing check (60_exceptions.md R200, R203) -/

/-- A command's own check fails with code 2 or 3 and nothing else written, or it is KEXP's (60_exceptions.md R203,
42_key_expansion.md R138). -/
theorem raise_of_acceptanceError {i : Instr} {s : State} {e : ErrorName} (hb : s.status.busy = false)
    (he : s.status.err = 0) (ha : acceptanceError i s = some e) :
    (∃ code : BitVec 4, (code = 2 ∨ code = 3) ∧ raise e s = { s with status := { s.status with err := code } }) ∨
    (i = .kexp ∧ raise e s =
      { s with W := Vector.replicate 60 quadZero,
               status := { busy := false, valid := false, err := 1, nk := 0, nr := 0 } }) := by
  obtain ⟨hi, rfl, -⟩ | ⟨-, rfl, -⟩ | ⟨r, -, rfl, -⟩ := acceptanceError_cases ha
  · exact .inr ⟨hi, raise_invalidKeyLength_of_idle hb he⟩
  · exact .inl ⟨2, .inl rfl, recordError_of_no_error .noRoundKeys he⟩
  · exact .inl ⟨3, .inr rfl, recordError_of_no_error .roundOutOfRange he⟩

/-! ### The core's turn under the invariant (45_control.md R193) -/

/-- In a consistent state the core's turn passes, or it is the pending command's effect and retirement: no error is
raised at completion. -/
theorem Consistent.coreStep_cases {s : State} (hc : Consistent s) :
    coreStep s = .next s ∨ ∃ i, coreStep s = .next (retire (effectOf i s)) := by
  cases hp : s.pend with
  | none => exact .inl (by rw [coreStep, hp])
  | some w =>
    obtain ⟨i, hd, hpass⟩ := hc.pending w hp
    exact .inr ⟨i, (coreStep_of_command hp hd).trans (exec_of_passed hpass)⟩

theorem Consistent.coreStep_err {s t : State} (hc : Consistent s) (h : coreStep s = .next t) :
    t.status.err = s.status.err := by
  obtain hn | ⟨i, hn⟩ := hc.coreStep_cases <;> cases hn.symm.trans h
  · rfl
  · exact effectOf_err i s

/-! ### The data registers after a write (20_memory.md R53, R54) -/

theorem quadToWord_blockSetColumn (T : Block) (c : Fin 4) (v : Word) (c' : Fin 4) :
    quadToWord (blockColumn (blockSetColumn T c (quadOfWord v)) c') =
      if c' = c then v else quadToWord (blockColumn T c') := by
  rw [blockColumn_blockSetColumn, apply_ite quadToWord, quadToWord_quadOfWord]

theorem quadToWord_setKeyWord (j : Fin 8) (v : Word) (s : State) (j' : Fin 8) :
    quadToWord (setKeyWord j (quadOfWord v) s).K[j'] = if j' = j then v else quadToWord s.K[j'] := by
  simp only [setKeyWord_K, Fin.getElem_fin, Vector.getElem_set, apply_ite quadToWord, quadToWord_quadOfWord,
    Fin.val_inj, @eq_comm _ j]

end Sys2Proof.Machine

section
open Sys2Proof Sys2Proof.Machine

/-- Settles O32: each outcome of an offer is one whole next state, and the invariant says that the pending word's checks
hold at completion. -/
theorem failingCommandWritesOnlyItsCode : Obligations.FailingCommandWritesOnlyItsCode := by
  refine ⟨fun w s hb => ?_, fun s t hc h => hc.coreStep_err h⟩
  obtain ⟨hbusy, -⟩ | ⟨-, he, hdrop⟩ | ⟨-, he, ⟨why, -, hraise⟩ | ⟨i, e, hd, ha, hraise⟩ | ⟨i, -, -, hacc⟩⟩ :=
    offer_cases w s
  · simp [hb] at hbusy
  · exact .inr (.inl ⟨hdrop, he⟩)
  · exact .inr (.inr (.inl ⟨he, 4, .inr (.inr rfl), hraise.trans (recordError_of_no_error .illegalCommand he)⟩))
  · obtain ⟨code, hcode, hr⟩ | ⟨rfl, hr⟩ := raise_of_acceptanceError hb he ha
    · exact .inr (.inr (.inl ⟨he, code, hcode.imp_right .inl, hraise.trans hr⟩))
    · exact .inr (.inr (.inr ⟨he, hd, hraise.trans hr⟩))
  · exact .inl ⟨hacc, he⟩

/-- Settles O33: the recorded error stops `offer`, and the writes of the data registers look at BUSY alone. -/
theorem errorBlocksCommandsButNotData : Obligations.ErrorBlocksCommandsButNotData := fun s v hb he =>
  ⟨hostStep_write_eq v rfl regAt_cmd (offer_blocked v s hb he),
   hostStep_write_eq v rfl regAt_keylen (writeReg_keylen_idle v s hb),
   fun c => ⟨blockSetColumn s.S c (quadOfWord v),
     hostStep_write_eq v (toNat_ofNat_mod_four (by omega)) (regAt_state c) (writeReg_state_idle c v s hb),
     quadToWord_blockSetColumn s.S c v⟩,
   fun j => ⟨(setKeyWord j (quadOfWord v) s).K,
     hostStep_write_eq v (toNat_ofNat_mod_four (by omega)) (regAt_key j) (writeReg_key_idle j v s hb),
     quadToWord_setKeyWord j v s⟩⟩

/-- Settles O34: the write of STATUS looks at bit 31 of the value and not at BUSY. -/
theorem statusWriteClearsTheError : Obligations.StatusWriteClearsTheError := fun s v =>
  hostStep_write_eq v rfl regAt_status (writeReg_status v s)

end
end

section
/-! SUPPORT. Where the registers stand whose writes a pending command stops and those that ignore writes, and the registers
after a reset; from them the statements about 70_reset_and_hazards.md. -/

namespace Sys2Proof.Machine

/-! ### Writes while a command is pending (70_reset_and_hazards.md R241) -/

theorem droppedWhileBusy_regAt {off : BitVec 12} (h4 : off.toNat % 4 = 0) :
    droppedWhileBusy (regAt off) = true ↔
      off = 0x000 ∨ off = 0x008 ∨ (0x010 ≤ off.toNat ∧ off.toNat < 0x040) := by
  rcases regAt_cases off h4 with ⟨ho, h⟩ | ⟨ho, h⟩ | ⟨ho, h⟩ | ⟨ho, h⟩ | ⟨_, _, _, h⟩ | ⟨_, _, _, h⟩ |
    ⟨_, _, _, h⟩ | ⟨_, h⟩ <;>
  simp only [h, droppedWhileBusy, true_iff, Bool.false_eq_true, false_iff] <;> bv_omega

theorem ignoresWrites_regAt {off : BitVec 12} (h4 : off.toNat % 4 = 0) :
    ignoresWrites (regAt off) = true ↔ off = 0x00C ∨ 0x040 ≤ off.toNat := by
  rcases regAt_cases off h4 with ⟨ho, h⟩ | ⟨ho, h⟩ | ⟨ho, h⟩ | ⟨ho, h⟩ | ⟨_, _, _, h⟩ | ⟨_, _, _, h⟩ |
    ⟨_, _, _, h⟩ | ⟨_, h⟩ <;>
  simp only [h, ignoresWrites, true_iff, Bool.false_eq_true, false_iff] <;> bv_omega

/-! ### Reset (70_reset_and_hazards.md R230) -/

/-- Every register of the core has its value after reset, and PEND is empty (10_state.md R42). -/
def registersAreReset (t : State) : Prop :=
  (∀ r c, blockGet t.S r c = 0x00) ∧ (∀ j, keyByte t j = 0x00) ∧ t.keylen = 0x00 ∧
  (∀ i : Fin 60, t.W[i] = ⟨0x00, 0x00, 0x00, 0x00⟩) ∧ t.gfres = 0x00 ∧ t.status.busy = false ∧
  t.status.valid = false ∧ t.status.err = 0 ∧ t.status.nk = 0 ∧ t.status.nr = 0 ∧
  statusWord t.status = 0x00000000 ∧ t.pend = none

theorem step_of_reset_next {s : State} {rest : List Event} (h : s.inputs = .reset :: rest) :
    step s = .next (platformReset (setInputs rest s)) := by
  rw [step, agentStep, h]

theorem blockGet_platformReset (s : State) (r c : Fin 4) : blockGet (platformReset s).S r c = 0x00 :=
  blockGet_blockOf (fun _ _ => 0x00) r c

theorem keyByte_platformReset (s : State) (j : Fin 32) : keyByte (platformReset s) j = 0x00 := by
  have hK : (platformReset s).K = Vector.replicate 8 (quadOf fun _ => 0x00) := rfl
  simp only [keyByte, hK, Vector.getElem_replicate, quadGet_quadOf]

theorem platformReset_W_getElem (s : State) (i : Fin 60) : (platformReset s).W[i] = quadZero :=
  Vector.getElem_replicate i.isLt

theorem statusWord_reset : statusWord Status.reset = 0x00000000 := by decide

/-- A reset gives every register its value, whatever the state it meets (70_reset_and_hazards.md R230). -/
theorem platformReset_registersAreReset (s : State) : registersAreReset (platformReset s) :=
  ⟨blockGet_platformReset s, keyByte_platformReset s, platformReset_keylen s, platformReset_W_getElem s,
    platformReset_gfres s, rfl, rfl, rfl, rfl, rfl, statusWord_reset, platformReset_pend s⟩

end Sys2Proof.Machine

section
open Sys2Proof Sys2Proof.Machine

/-- Settles O36: the register at the offset is one that BUSY stops, STATUS, or one that ignores writes. -/
theorem busyWritesAreDroppedAndReported : Obligations.BusyWritesAreDroppedAndReported := by
  refine fun s off v hb h4 => ⟨fun h => ?_, fun h => ?_, fun h => ?_⟩
  · exact hostStep_write_dropped v h4 rfl hb ((droppedWhileBusy_regAt h4).2 h)
  · exact hostStep_write_eq v h4 ((regAt_eq_status_iff h4).2 h) (writeReg_status v s)
  · exact hostStep_write_ignored v s h4 rfl ((ignoresWrites_regAt h4).2 h)

/-- Settles O50: the reset event looks at no register, and the state the machine starts in is its own reset. -/
theorem resetGivesEveryRegisterItsValue : Obligations.ResetGivesEveryRegisterItsValue := by
  constructor
  · rintro s ⟨rest, h⟩
    exact ⟨_, step_of_reset_next h, platformReset_registersAreReset _⟩
  · rintro t rfl
    exact platformReset_registersAreReset State.reset

end
end

section
/-! SUPPORT. The statements about the decoder and the encoder (95_test_vectors.md section 2), from `decode_encode` and
`encode_of_decode`. -/

section
open Sys2Proof Sys2Proof.Machine

/-- Settles O1: the decoder sees the fields that the encoder wrote. -/
theorem decodeOfEncodeIsTheCommand : Obligations.DecodeOfEncodeIsTheCommand := fun _ => decode_encode

/-- Settles O2: each line of the decoder's `case` names the command whose encoding has the fields it read. -/
theorem legalWordIsTheEncodingOfItsCommand : Obligations.LegalWordIsTheEncodingOfItsCommand := fun _ _ =>
  encode_of_decode

/-- Settles O4: the listed words decode as listed, and a ready core records code 4 for each of the illegal ones. -/
theorem chosenWordsDecodeAsTheSpecLists : Obligations.ChosenWordsDecodeAsTheSpecLists :=
  ⟨rfl, rfl, rfl, rfl, rfl, rfl, rfl, fun _ hs =>
    ⟨offer_of_decode_illegal (why := .reservedField) hs rfl, offer_of_decode_illegal (why := .undefinedOpcode) hs rfl,
     offer_of_decode_illegal (why := .unusedField) hs rfl⟩⟩

end
end

section
/-! SUPPORT. What one step does to the registers of the core, once for every agent, and that each such move keeps the
invariant (10_state.md R20, R33, R35); from them the statements about the invariant and about the runs from reset. -/

namespace Sys2Proof.Machine

/-! ### The moves of a step -/

/-- `CoreMove s u`: in state `s` one agent's turn leaves the core's registers as they are in `u` (10_state.md R20). The
list of inputs, the bus's answer and the count of draws, which are the model's own, are left out (logs 1, 5 and 6). -/
inductive CoreMove (s : State) : State → Prop
  /-- a read, a write that is ignored or dropped, or a turn with nothing to do. -/
  | idle : CoreMove s s
  /-- the platform's reset (70_reset_and_hazards.md R230). -/
  | reset : resetsNext s → CoreMove s (platformReset s)
  /-- the pending command completes (45_control.md R193). -/
  | completed {i : Instr} : completesNext s i → acceptanceError i s = none → CoreMove s (retire (effectOf i s))
  /-- the pending command's own check fails at its completion (log 9). -/
  | failed {i : Instr} {e : ErrorName} : completesNext s i → acceptanceError i s = some e →
      CoreMove s (retire (raise e s))
  /-- the pending word spells no command (log 9). -/
  | illegal {w : Word} {why : Illegal} : coreMovesNext s → s.pend = some w → decode w = .illegal why →
      CoreMove s (retire (raise .illegalCommand s))
  /-- a write that the pending command stops (70_reset_and_hazards.md R241). -/
  | stopped : s.status.busy = true → CoreMove s (raise .busy s)
  /-- a CMD write of a word that spells no command (45_control.md R190). -/
  | offeredIllegal {v : Word} : hostWritesNext s 0x000 v → s.status.busy = false → s.status.err = 0 →
      CoreMove s (raise .illegalCommand s)
  /-- a CMD write of a command whose check fails. -/
  | offeredFailed {v : Word} {i : Instr} {e : ErrorName} : hostWritesNext s 0x000 v → s.status.busy = false →
      s.status.err = 0 → decode v = .command i → acceptanceError i s = some e → CoreMove s (raise e s)
  /-- a CMD write of a command whose checks pass (45_control.md R191). -/
  | accepted {v : Word} {i : Instr} : hostWritesNext s 0x000 v → s.status.busy = false → s.status.err = 0 →
      decode v = .command i → acceptanceError i s = none → CoreMove s (accept v s)
  /-- a STATUS write with bit 31 set (60_exceptions.md R210). -/
  | cleared {v : Word} : hostWritesNext s 0x004 v → v.getLsbD 31 = true → CoreMove s (clearError s)
  /-- a data write to an idle core, here and in the next two (20_memory.md R53 to R55). -/
  | wroteKeylen {v : Word} : hostWritesNext s 0x008 v → s.status.busy = false →
      CoreMove s (setKeylen (v.extractLsb' 0 8) s)
  | wroteState {off : BitVec 12} {v : Word} {T : Block} : hostWritesNext s off v → s.status.busy = false →
      0x010 ≤ off.toNat → off.toNat < 0x020 → CoreMove s (setBlock T s)
  | wroteKey {off : BitVec 12} {v : Word} {j : Fin 8} : hostWritesNext s off v → s.status.busy = false →
      0x020 ≤ off.toNat → off.toNat < 0x040 → CoreMove s (setKeyWord j (quadOfWord v) s)

/-! The core's operations do not see the list of inputs. -/

theorem raise_setInputs (e : ErrorName) (es : List Event) (s : State) :
    raise e (setInputs es s) = setInputs es (raise e s) := by
  cases e <;> rfl

theorem effectOf_setInputs (i : Instr) (es : List Event) (s : State) :
    effectOf i (setInputs es s) = setInputs es (effectOf i s) := by
  cases i <;> rfl

theorem acceptanceError_setInputs (i : Instr) (es : List Event) (s : State) :
    acceptanceError i (setInputs es s) = acceptanceError i s :=
  acceptanceError_congr i s (setInputs es s) rfl rfl rfl

/-- The core's turn is one of the moves, whatever inputs it leaves. -/
theorem coreMove_of_coreStep {s t : State} {es : List Event} (hnext : coreMovesNext s)
    (h : coreStep (setInputs es s) = .next t) : ∃ u, CoreMove s u ∧ t = setInputs es u := by
  obtain ⟨-, hn⟩ | ⟨w, i, hp, hd, hn⟩ | ⟨w, why, hp, hd, hn⟩ := coreStep_cases (setInputs es s)
  · cases hn.symm.trans h
    exact ⟨s, .idle, rfl⟩
  · rw [hn, exec_eq, acceptanceError_setInputs] at h
    have hcompletes : completesNext s i := ⟨hnext, w, hp, hd⟩
    cases ha : acceptanceError i s with
    | none =>
      rw [ha, runCommand_passed, effectOf_setInputs] at h
      cases h
      exact ⟨_, .completed hcompletes ha, rfl⟩
    | some e =>
      rw [ha, runCommand_failed, raise_setInputs] at h
      cases h
      exact ⟨_, .failed hcompletes ha, rfl⟩
  · cases hn.symm.trans h
    exact ⟨_, .illegal hnext hp hd, rfl⟩

/-- A word offered by the host is one of the moves. -/
theorem coreMove_of_offer {s : State} {rest : List Event} {v : Word} (hnext : hostWritesNext s 0x000 v) :
    ∃ u, CoreMove s u ∧ offer v (setInputs rest s) = setInputs rest u := by
  obtain ⟨hb, h⟩ | ⟨-, -, h⟩ | ⟨hb, he, ⟨why, -, h⟩ | ⟨i, e, hd, ha, h⟩ | ⟨i, hd, ha, h⟩⟩ :=
    offer_cases v (setInputs rest s)
  · exact ⟨_, .stopped hb, h.trans (raise_setInputs _ _ _)⟩
  · exact ⟨_, .idle, h⟩
  · exact ⟨_, .offeredIllegal hnext hb he, h.trans (raise_setInputs _ _ _)⟩
  · rw [acceptanceError_setInputs] at ha
    exact ⟨_, .offeredFailed hnext hb he hd ha, h.trans (raise_setInputs _ _ _)⟩
  · rw [acceptanceError_setInputs] at ha
    exact ⟨_, .accepted hnext hb he hd ha, h⟩

/-- A served write of the host is one of the moves. -/
theorem coreMove_of_writeReg {s : State} {off : BitVec 12} {v : Word} {rest : List Event}
    (hin : s.inputs = .host (.write .w32 off v) :: rest) (h4 : off.toNat % 4 = 0) :
    ∃ u, CoreMove s u ∧ writeReg (regAt off) v (setInputs rest s) = setInputs rest u := by
  have hnext : hostWritesNext s off v := ⟨rest, hin⟩
  obtain ⟨rfl, h⟩ | ⟨rfl, hv, h⟩ | ⟨hb, -, -, h⟩ | ⟨hb, rfl, h⟩ | ⟨hb, h1, h2, T, h⟩ | ⟨hb, h1, h2, j, h⟩ | h :=
    writeReg_cases off v (setInputs rest s) h4
  · obtain ⟨u, hu, ho⟩ := coreMove_of_offer (rest := rest) hnext
    exact ⟨u, hu, h.trans ho⟩
  · exact ⟨_, .cleared hnext hv, h⟩
  · exact ⟨_, .stopped hb, h.trans (raise_setInputs _ _ _)⟩
  · exact ⟨_, .wroteKeylen hnext hb, h⟩
  · exact ⟨_, .wroteState hnext hb h1 h2, h⟩
  · exact ⟨_, .wroteKey hnext hb h1 h2, h⟩
  · exact ⟨_, .idle, h⟩

/-- Everything a step does to the core's registers. -/
theorem coreMove_of_step {s t : State} (h : step s = .next t) :
    ∃ u es r d, CoreMove s u ∧ t = { u with inputs := es, reply := r, draws := d } := by
  obtain ⟨hin, hcore⟩ | ⟨rest, hin, hcore⟩ | ⟨a, rest, hin, hhost⟩ | ⟨rest, hin, rfl⟩ := step_cases h
  · obtain ⟨u, hu, rfl⟩ := coreMove_of_coreStep (es := s.inputs) (.inl hin) hcore
    exact ⟨u, _, _, _, hu, rfl⟩
  · obtain ⟨u, hu, rfl⟩ := coreMove_of_coreStep (.inr ⟨rest, hin⟩) hcore
    exact ⟨u, _, _, _, hu, rfl⟩
  · obtain ⟨off, rfl, -, rfl⟩ | ⟨off, v, rfl, h4, rfl⟩ := hostStep_cases hhost
    · exact ⟨s, rest, _, _, .idle, hostRead_frame (regAt off) (setInputs rest s)⟩
    · obtain ⟨u, hu, hw⟩ := coreMove_of_writeReg hin h4
      exact ⟨u, rest, .done, u.draws, hu, by rw [hostWrite, hw]; rfl⟩
  · exact ⟨_, rest, s.reply, s.draws, .reset ⟨rest, hin⟩, rfl⟩

/-! ### Each move keeps the invariant -/

theorem errorCode_le (e : ErrorName) : (errorCode e).toNat ≤ 5 := by
  cases e <;> decide

theorem noKeySet_of_wiped {s : State} (hv : s.status.valid = false) (hnk : s.status.nk = 0) (hnr : s.status.nr = 0)
    (hW : s.W = Vector.replicate 60 quadZero) : noKeySet s :=
  ⟨hv, hnk, hnr, fun i => by simp [hW]⟩

/-- Nothing pending, so nothing to check of a pending word. -/
theorem pendingIsLegal_of_none {s : State} (h : s.pend = none) : pendingIsLegal s :=
  fun w hw => by cases h.symm.trans hw

/-- The two states hold the same RoundKeySet, or none (10_state.md R25, R28). -/
def sameKeySet (s t : State) : Prop :=
  t.W = s.W ∧ t.status.valid = s.status.valid ∧ t.status.nk = s.status.nk ∧ t.status.nr = s.status.nr

theorem sameKeySet_effectOf {i : Instr} (s : State) (hi : i ≠ .kexp) : sameKeySet s (effectOf i s) := by
  obtain ⟨-, -, -, -, -, -, -, -, hother⟩ := effectOf_frame i s
  obtain ⟨hW, hstatus⟩ := hother hi
  exact ⟨hW, by rw [hstatus], by rw [hstatus], by rw [hstatus]⟩

theorem keySet_congr {s t : State} (hsame : sameKeySet s t) (h : noKeySet s ∨ wholeKeySet s) :
    noKeySet t ∨ wholeKeySet t := by
  obtain ⟨hW, hv, hnk, hnr⟩ := hsame
  simpa only [noKeySet, wholeKeySet, hW, hv, hnk, hnr] using h

/-- A pending word stays legal if what its check reads stays. -/
theorem pendingIsLegal_congr {s t : State} (hp : t.pend = s.pend) (hk : t.keylen = s.keylen)
    (hv : t.status.valid = s.status.valid) (hnr : t.status.nr = s.status.nr) (h : pendingIsLegal s) :
    pendingIsLegal t := by
  intro w hw
  obtain ⟨i, hd, ha⟩ := h w (hp ▸ hw)
  exact ⟨i, hd, (acceptanceError_congr i s t hk hv hnr).trans ha⟩

/-- The invariant says nothing of the model's own fields. -/
theorem Consistent.withOwnFields {s : State} (hc : Consistent s) (es : List Event) (r : Reply) (d : Nat) :
    Consistent { s with inputs := es, reply := r, draws := d } :=
  ⟨hc.busyPend, hc.errCode, hc.keySet, pendingIsLegal_congr rfl rfl rfl rfl hc.pending⟩

theorem Consistent.pend_of_idle {s : State} (hc : Consistent s) (hb : s.status.busy = false) : s.pend = none := by
  have h : s.status.busy = s.pend.isSome := hc.busyPend
  simpa [hb] using h

theorem errorIsDefined_of_recorded {s t : State} {e : ErrorName} (hs : errorIsDefined s)
    (ht : t.status.err = if s.status.err = 0 then errorCode e else s.status.err) : errorIsDefined t := by
  rw [errorIsDefined, ht]
  split
  · exact errorCode_le e
  · exact hs

/-- An error that leaves the RoundKeySet alone. -/
theorem Consistent.recordError {s : State} (hc : Consistent s) (e : ErrorName) : Consistent (recordError e s) :=
  ⟨hc.busyPend, errorIsDefined_of_recorded hc.errCode rfl, keySet_congr ⟨rfl, rfl, rfl, rfl⟩ hc.keySet,
    pendingIsLegal_congr rfl rfl rfl rfl hc.pending⟩

theorem Consistent.wipeRoundKeys {s : State} (hc : Consistent s) (hp : s.pend = none) :
    Consistent (wipeRoundKeys s) :=
  ⟨hc.busyPend, hc.errCode, .inl (noKeySet_of_wiped rfl rfl rfl rfl), pendingIsLegal_of_none hp⟩

theorem Consistent.raise {s : State} (hc : Consistent s) (e : ErrorName) (hp : e = .invalidKeyLength → s.pend = none) :
    Consistent (raise e s) := by
  cases e with
  | invalidKeyLength => exact (hc.wipeRoundKeys (hp rfl)).recordError .invalidKeyLength
  | noRoundKeys | roundOutOfRange | illegalCommand | busy => exact hc.recordError _

theorem Consistent.accept {s : State} {v : Word} {i : Instr} (hc : Consistent s) (hd : decode v = .command i)
    (ha : acceptanceError i s = none) : Consistent (accept v s) := by
  refine ⟨rfl, hc.errCode, keySet_congr ⟨rfl, rfl, rfl, rfl⟩ hc.keySet, fun w hw => ?_⟩
  cases hw
  exact ⟨i, hd, (acceptanceError_congr i s _ rfl rfl rfl).trans ha⟩

theorem Consistent.retire {s : State} (herr : errorIsDefined s) (hkeys : noKeySet s ∨ wholeKeySet s) :
    Consistent (retire s) :=
  ⟨rfl, herr, keySet_congr ⟨rfl, rfl, rfl, rfl⟩ hkeys, pendingIsLegal_of_none rfl⟩

/-- What KEXP writes is a whole RoundKeySet (42_key_expansion.md R137, 10_state.md R33). -/
theorem wholeKeySet_expandKey {s : State} (h : legalKeyLength s.keylen = true) : wholeKeySet (expandKey s) := by
  obtain ⟨nk, hlen⟩ : ∃ nk, (nk = 4 ∧ s.keylen = 16) ∨ (nk = 6 ∧ s.keylen = 24) ∨ (nk = 8 ∧ s.keylen = 32) := by
    simpa [legalKeyLength, exists_or] using h
  obtain ⟨-, hnk, -, hmax⟩ := nkOf_of_keylen hlen
  have hkey := (masterKey_length s nk).trans (min_eq_left hmax)
  have hcases : nk = 4 ∨ nk = 6 ∨ nk = 8 := hlen.imp And.left (.imp And.left And.left)
  refine ⟨rfl, nk, masterKey s nk, hcases, hkey, ?_, ?_, fun i => ?_⟩
  · rw [expandKey, setRoundKeys_status, hnk]
    exact Nat.mod_eq_of_lt (by omega)
  · rw [expandKey, setRoundKeys_status, hnk, nrOf]
    exact Nat.mod_eq_of_lt (by omega)
  · rw [expandKey, setRoundKeys_W, hnk, roundKeyFile_getElem]
    split
    · rfl
    · exact expand_getD_end hkey (by omega)

/-- A command's effect leaves the RoundKeySet alone, or it is KEXP's and leaves a whole one. -/
theorem keySet_effectOf {i : Instr} {s : State} (ha : acceptanceError i s = none)
    (h : noKeySet s ∨ wholeKeySet s) : noKeySet (effectOf i s) ∨ wholeKeySet (effectOf i s) := by
  by_cases hi : i = .kexp
  · subst hi
    have hlegal : legalKeyLength s.keylen = true := by simpa [acceptanceError, keyLengthError] using ha
    exact .inr (wholeKeySet_expandKey hlegal)
  · exact keySet_congr (sameKeySet_effectOf s hi) h

theorem Consistent.platformReset (s : State) : Consistent (platformReset s) :=
  ⟨rfl, Nat.zero_le 5, .inl (noKeySet_of_wiped rfl rfl rfl (platformReset_W s)), pendingIsLegal_of_none rfl⟩

/-- Every move keeps the invariant (10_state.md R33, R35; 60_exceptions.md R200; 45_control.md R191). -/
theorem Consistent.coreMove {s u : State} (hc : Consistent s) (h : CoreMove s u) : Consistent u := by
  cases h with
  | idle => exact hc
  | reset => exact .platformReset s
  | completed _ ha =>
    exact .retire (by rw [errorIsDefined, effectOf_err]; exact hc.errCode) (keySet_effectOf ha hc.keySet)
  | failed hnext ha =>
    obtain ⟨-, w, hp, hd⟩ := hnext
    obtain ⟨j, hj, hpass⟩ := hc.pending w hp
    cases hj.symm.trans hd
    cases hpass.symm.trans ha
  | illegal _ hp hd =>
    obtain ⟨j, hj, -⟩ := hc.pending _ hp
    cases hj.symm.trans hd
  | stopped => exact hc.raise .busy nofun
  | offeredIllegal => exact hc.raise .illegalCommand nofun
  | offeredFailed _ hb => exact hc.raise _ fun _ => hc.pend_of_idle hb
  | accepted _ _ _ hd ha => exact hc.accept hd ha
  | cleared =>
    exact ⟨hc.busyPend, Nat.zero_le 5, keySet_congr ⟨rfl, rfl, rfl, rfl⟩ hc.keySet,
      pendingIsLegal_congr rfl rfl rfl rfl hc.pending⟩
  | wroteKeylen _ hb | wroteState _ hb | wroteKey _ hb =>
    exact ⟨hc.busyPend, hc.errCode, keySet_congr ⟨rfl, rfl, rfl, rfl⟩ hc.keySet,
      pendingIsLegal_of_none (hc.pend_of_idle hb)⟩

theorem Consistent.step {s t : State} (hc : Consistent s) (h : step s = .next t) : Consistent t := by
  obtain ⟨u, es, r, d, hu, rfl⟩ := coreMove_of_step h
  exact (hc.coreMove hu).withOwnFields es r d

theorem run_succ_of_next {M : Host.Core} {n : Nat} {s u : M.State} (h : M.step s = .next u) :
    M.run (n + 1) s = M.run n u := by
  rw [Host.Core.run, h]

/-- What every step keeps holds at the end of a run if it holds at its start. -/
theorem run_keeps {M : Host.Core} {P : M.State → Prop} (hstep : ∀ s t, P s → M.step s = .next t → P t) {n : Nat}
    {s t : M.State} (hs : P s) (h : M.run n s = .next t) : P t := by
  induction n generalizing s with
  | zero => cases h; exact hs
  | succ n ih =>
    cases hn : M.step s with
    | next u => exact ih (hstep s u hs hn) ((run_succ_of_next hn).symm.trans h)
    | fault e => simp [Host.Core.run, hn] at h
    | refused e => simp [Host.Core.run, hn] at h

theorem Consistent.run {n : Nat} {s t : State} (hc : Consistent s)
    (h : Host.Core.run Sys2Proof.core n s = .next t) : Consistent t :=
  run_keeps (M := Sys2Proof.core) (P := Consistent) (fun _ _ hc hstep => hc.step hstep) hc h

theorem consistent_reset (es : List Event) : Consistent { State.reset with inputs := es } :=
  (Consistent.platformReset State.reset).withOwnFields es .none 0

/-- The two cases of 10_state.md R33 as values of STATUS and W. -/
theorem Consistent.status_cases {t : State} (hc : Consistent t) :
    (t.status.valid = false ∧ t.status.nk = 0 ∧ t.status.nr = 0 ∧ ∀ i : Fin 60, t.W[i] = quadZero) ∨
    (t.status.valid = true ∧
      ((t.status.nk = 4 ∧ t.status.nr = 10) ∨ (t.status.nk = 6 ∧ t.status.nr = 12) ∨
        (t.status.nk = 8 ∧ t.status.nr = 14)) ∧
      ∀ i : Fin 60, 4 * (t.status.nr.toNat + 1) ≤ i.val → t.W[i] = quadZero) := by
  refine hc.keySet.imp id ?_
  rintro ⟨hv, nk, key, hcases, -, hnk, hnr, hW⟩
  refine ⟨hv, ?_, fun i hi => ?_⟩
  · simp only [← BitVec.toNat_inj, hnk, hnr]
    exact hcases.imp (by rintro rfl; decide) (.imp (by rintro rfl; decide) (by rintro rfl; decide))
  · rw [hW, if_neg (by omega)]

end Sys2Proof.Machine

section
open Sys2Proof Sys2Proof.Machine

/-- Settles O52: every step is one of the moves, and each move keeps the invariant. -/
theorem everyStepKeepsTheInvariant : Obligations.EveryStepKeepsTheInvariant := fun _ _ hc h => hc.step h

/-- Settles O53: the reset state has no RoundKeySet and nothing pending. -/
theorem resetStateMeetsTheInvariant : Obligations.ResetStateMeetsTheInvariant := consistent_reset

/-- Settles O54: the invariant holds at reset and along every run, and says so much of STATUS and W. -/
theorem reachableStatusIsConsistent : Obligations.ReachableStatusIsConsistent := by
  intro n es t h
  have hc := (consistent_reset es).run h
  have hbusy : t.status.busy = t.pend.isSome := hc.busyPend
  exact ⟨hc.errCode, by rw [hbusy, Option.isSome_iff_ne_none], hc.status_cases⟩

end
end

section
/-! SUPPORT. What an error and a command's effect leave alone, register by register; from them and from the moves of a
step the statements about who writes each register. -/

namespace Sys2Proof.Machine

/-! ### A raised error, register by register (60_exceptions.md R203) -/

section
variable (e : ErrorName) (s : State)

@[simp] theorem raise_S : (raise e s).S = s.S := by cases e <;> rfl
@[simp] theorem raise_K : (raise e s).K = s.K := by cases e <;> rfl
@[simp] theorem raise_keylen : (raise e s).keylen = s.keylen := by cases e <;> rfl
@[simp] theorem raise_gfres : (raise e s).gfres = s.gfres := by cases e <;> rfl
@[simp] theorem raise_pend : (raise e s).pend = s.pend := by cases e <;> rfl

end

/-- The first error wins (60_exceptions.md R208). -/
theorem raise_err_of_recorded {s : State} (e : ErrorName) (h : s.status.err ≠ 0) :
    (raise e s).status.err = s.status.err := by
  obtain ⟨-, -, -, -, -, -, -, -, -, herr⟩ := raise_frame e s
  rw [herr, if_neg h]

/-! ### A command's effect, register by register -/

section
variable (i : Instr) (s : State)

@[simp] theorem effectOf_K : (effectOf i s).K = s.K := by
  obtain ⟨hK, -⟩ := effectOf_frame i s
  exact hK

@[simp] theorem effectOf_keylen : (effectOf i s).keylen = s.keylen := by
  obtain ⟨-, hkeylen, -⟩ := effectOf_frame i s
  exact hkeylen

theorem expandKey_S : (expandKey s).S = s.S := by rw [expandKey, setRoundKeys_S]
theorem expandKey_gfres : (expandKey s).gfres = s.gfres := by rw [expandKey, setRoundKeys_gfres]

/-- The field and ROM commands write GFRES (10_state.md R27). -/
theorem effectOf_gfres_cases :
    (∃ a b, i = .xtime a ∨ i = .gmul a b ∨ i = .sbox a ∨ i = .isbox a) ∨ (effectOf i s).gfres = s.gfres := by
  cases i with
  | xtime a | sbox a | isbox a => exact .inl ⟨a, 0, by simp⟩
  | gmul a b => exact .inl ⟨a, b, by simp⟩
  | kexp => exact .inr (expandKey_gfres s)
  | nop | enc | dec | ark | sb | isb | sr | isr | mc | imc => exact .inr rfl

/-- The block and round commands write S (10_state.md R22). -/
theorem effectOf_S_cases :
    (i = .enc ∨ i = .dec ∨ (∃ r, i = .ark r) ∨ i = .sb ∨ i = .isb ∨ i = .sr ∨ i = .isr ∨ i = .mc ∨ i = .imc) ∨
    (effectOf i s).S = s.S := by
  cases i with
  | enc | dec | ark | sb | isb | sr | isr | mc | imc => exact .inl (by simp)
  | kexp => exact .inr (expandKey_S s)
  | nop | xtime | gmul | sbox | isbox => exact .inr rfl

end

/-! ### Who writes the RoundKeySet (10_state.md R25, R28) -/

theorem sameKeySet_raise {e : ErrorName} (s : State) (he : e ≠ .invalidKeyLength) : sameKeySet s (raise e s) := by
  cases e with
  | invalidKeyLength => exact absurd rfl he
  | noRoundKeys | roundOutOfRange | illegalCommand | busy => exact ⟨rfl, rfl, rfl, rfl⟩

/-- Only KEXP's own check wipes the RoundKeySet (42_key_expansion.md R138). -/
theorem kexp_or_sameKeySet_raise {i : Instr} {s : State} {e : ErrorName} (ha : acceptanceError i s = some e) :
    (i = .kexp ∧ e = .invalidKeyLength) ∨ sameKeySet s (raise e s) := by
  obtain ⟨hi, he, -⟩ | ⟨-, rfl, -⟩ | ⟨r, -, rfl, -⟩ := acceptanceError_cases ha
  · exact .inl ⟨hi, he⟩
  · exact .inr (sameKeySet_raise s nofun)
  · exact .inr (sameKeySet_raise s nofun)

/-- The moves that write the RoundKeySet. -/
theorem CoreMove.keySet_cases {s u : State} (h : CoreMove s u) :
    sameKeySet s u ∨ resetsNext s ∨ completesNext s .kexp ∨
      ∃ v, hostWritesNext s 0x000 v ∧ decode v = .command .kexp ∧ s.status.busy = false ∧ s.status.err = 0 ∧
        u.status.valid = false ∧ u.status.err = 1 := by
  cases h with
  | reset hr => exact .inr (.inl hr)
  | @completed i hnext =>
    by_cases hi : i = .kexp
    · exact .inr (.inr (.inl (hi ▸ hnext)))
    · exact .inl (sameKeySet_effectOf s hi)
  | failed hnext ha =>
    obtain ⟨rfl, -⟩ | hsame := kexp_or_sameKeySet_raise ha
    · exact .inr (.inr (.inl hnext))
    · exact .inl hsame
  | offeredFailed hw hb he hd ha =>
    obtain ⟨rfl, rfl⟩ | hsame := kexp_or_sameKeySet_raise ha
    · exact .inr (.inr (.inr ⟨_, hw, hd, hb, he, rfl, if_pos he⟩))
    · exact .inl hsame
  | illegal | offeredIllegal | stopped => exact .inl (sameKeySet_raise s nofun)
  | idle | accepted | cleared | wroteKeylen | wroteState | wroteKey => exact .inl ⟨rfl, rfl, rfl, rfl⟩

end Sys2Proof.Machine

section
open Sys2Proof Sys2Proof.Machine

/-- Settles O35: an error recorded already stays under every move but the clearing write and reset. -/
theorem firstErrorWinsUntilCleared : Obligations.FirstErrorWinsUntilCleared := by
  intro s t herr h hchanged
  obtain ⟨u, es, r, d, hu, rfl⟩ := coreMove_of_step h
  cases hu with
  | reset hr => exact ⟨rfl, .inl hr⟩
  | cleared hw hv => exact ⟨rfl, .inr ⟨_, hw, hv⟩⟩
  | completed => exact absurd (effectOf_err _ s) hchanged
  | failed | illegal | stopped => exact absurd (raise_err_of_recorded _ herr) hchanged
  | offeredIllegal _ _ he | offeredFailed _ _ he | accepted _ _ he => exact absurd he herr
  | idle | wroteKeylen | wroteState | wroteKey => exact absurd rfl hchanged

/-- Settles O55: no command and no error writes K or KEYLEN. -/
theorem onlyHostWritesChangeTheKey : Obligations.OnlyHostWritesChangeTheKey := by
  intro s t h
  obtain ⟨u, es, r, d, hu, rfl⟩ := coreMove_of_step h
  constructor
  · intro hchanged
    cases hu with
    | reset hr => exact .inl hr
    | wroteKey hw hb h1 h2 => exact .inr ⟨_, _, hw, hb, h1, h2, rfl, rfl⟩
    | _ => simp at hchanged
  · intro hchanged
    cases hu with
    | reset hr => exact .inl hr
    | wroteKeylen hw hb => exact .inr ⟨_, hw, hb, rfl, rfl⟩
    | _ => simp at hchanged

/-- Settles O56: the moves that write the RoundKeySet are KEXP's, failing or not, and reset. -/
theorem onlyKexpAndResetChangeTheKeySet : Obligations.OnlyKexpAndResetChangeTheKeySet := by
  intro s t h hchanged
  obtain ⟨u, es, r, d, hu, rfl⟩ := coreMove_of_step h
  obtain ⟨hW, hv, hnk, hnr⟩ | hwriter := hu.keySet_cases
  · simp [hW, hv, hnk, hnr] at hchanged
  · exact hwriter

/-- Settles O57: a completion writes GFRES or S only if it is one of the listed commands'. -/
theorem onlyTheirOwnCommandsChangeStateAndGfres : Obligations.OnlyTheirOwnCommandsChangeStateAndGfres := by
  intro s t h
  obtain ⟨u, es, r, d, hu, rfl⟩ := coreMove_of_step h
  constructor
  · intro hchanged
    cases hu with
    | reset hr => exact .inl hr
    | completed hnext => exact .inr ⟨_, hnext, (effectOf_gfres_cases _ s).resolve_right hchanged⟩
    | _ => simp at hchanged
  · intro hchanged
    cases hu with
    | reset hr => exact .inl hr
    | wroteState hw hb h1 h2 => exact .inr (.inl ⟨_, _, hw, hb, h1, h2⟩)
    | completed hnext => exact .inr (.inr ⟨_, hnext, (effectOf_S_cases _ s).resolve_right hchanged⟩)
    | _ => simp at hchanged

/-- Settles O58: only the accepted word fills PEND, and only the core's turn and reset empty it. -/
theorem pendIsSetByAcceptanceAndEmptiedByCompletion : Obligations.PendIsSetByAcceptanceAndEmptiedByCompletion := by
  intro s t h hchanged
  obtain ⟨u, es, r, d, hu, rfl⟩ := coreMove_of_step h
  cases hu with
  | reset hr => exact .inl ⟨rfl, .inl hr⟩
  | completed hnext | failed hnext =>
    obtain ⟨hcore, -⟩ := hnext
    exact .inl ⟨rfl, .inr hcore⟩
  | illegal hnext => exact .inl ⟨rfl, .inr hnext⟩
  | accepted hw hb he => exact .inr ⟨_, hw, rfl, rfl, hb, he⟩
  | _ => simp at hchanged

end
end

section
/-! SUPPORT. A step read from the list of inputs, and a pending command from its acceptance to its completion; from them
the statements about steps and completion (10_state.md section 1, 45_control.md), the host beside a pending command
(60_exceptions.md section 1) and about a core without a key (70_reset_and_hazards.md section 1). -/

namespace Sys2Proof.Machine

/-! ### A step, read from the list of inputs (10_state.md R20) -/

section
variable {s : State} {rest : List Event}

theorem step_of_no_input (h : s.inputs = []) : step s = coreStep s := by
  rw [step, agentStep, h]

theorem step_of_core_next (h : s.inputs = .core :: rest) : step s = coreStep (setInputs rest s) := by
  rw [step, agentStep, h]

theorem step_of_host_next {a : Access} (h : s.inputs = .host a :: rest) : step s = hostStep a (setInputs rest s) := by
  rw [step, agentStep, h]

theorem coreStep_of_no_pending (h : s.pend = none) : coreStep s = .next s := by
  rw [coreStep, h]

end

/-! ### Acceptance, then completion (45_control.md R190, R193) -/

/-- A ready core has nothing to retire. -/
theorem retire_of_ready {s : State} (hs : ready s) : retire s = s := by
  obtain ⟨hb, -, hp⟩ := hs
  rw [retire, ← hb, ← hp]

theorem retire_raise_of_ready {s : State} (e : ErrorName) (hs : ready s) : retire (raise e s) = raise e s := by
  have hretire : retire (raise e s) = raise e (retire s) := by cases e <;> rfl
  rw [hretire, retire_of_ready hs]

theorem coreStep_accept {w : Word} {i : Instr} {s : State} (hd : decode w = .command i)
    (ha : acceptanceError i s = none) : coreStep (accept w s) = exec i s :=
  (coreStep_of_command rfl hd).trans (exec_accept i w s ha)

/-! ### The host beside a pending command (60_exceptions.md section 1) -/

/-- Whatever the host does while a command is pending, it reaches nothing but ERR (10_state.md R41). -/
theorem hostAll_busy {as : List Access} {s u : State} (hb : s.status.busy = true) (h : hostAll as s = .next u) :
    ∃ e r d, u = { s with status := { s.status with err := e }, reply := r, draws := d } := by
  induction as generalizing s with
  | nil => cases h; exact ⟨_, _, _, rfl⟩
  | cons a as ih =>
    rw [hostAll] at h
    split at h
    · rename_i v hstep
      obtain ⟨e, r, d, hv⟩ := hostStep_busy hb hstep
      obtain ⟨e', r', d', rfl⟩ := ih (by rw [hv]; exact hb) h
      exact ⟨e', r', d', by rw [hv]⟩
    · cases h
    · cases h

/-- No effect reads ERR or the model's own fields. -/
theorem effectOf_withErr (i : Instr) (s : State) (e : BitVec 4) (r : Reply) (d : Nat) :
    effectOf i { s with status := { s.status with err := e }, reply := r, draws := d } =
      { effectOf i s with status := { (effectOf i s).status with err := e }, reply := r, draws := d } := by
  cases i <;> rfl

/-- A served access is answered (20_memory.md R51). -/
theorem hostStep_of_served {a : Access} (h : servedEvent (.host a) = true) (s : State) :
    ∃ t, hostStep a s = .next t := by
  cases a with
  | read width off => exact ⟨_, if_pos h⟩
  | write width off v => exact ⟨_, if_pos h⟩

/-! ### Completion in time (45_control.md R193) -/

/-- The core's turn ends a pending command. -/
theorem Consistent.coreStep_completes {s : State} {w : Word} (hc : Consistent s) (hp : s.pend = some w) :
    ∃ t, coreStep s = .next t ∧ t.pend = none ∧ t.status.busy = false := by
  obtain ⟨i, hd, hpass⟩ := hc.pending w hp
  exact ⟨_, (coreStep_of_command hp hd).trans (exec_of_passed hpass), rfl, rfl⟩

/-- Among served inputs a pending command outlasts only the host's accesses that stand before the core's turn. -/
theorem completes_within {es : List Event} {s : State} {w : Word} (hin : s.inputs = es) (hc : Consistent s)
    (hp : s.pend = some w) (hserved : ∀ e ∈ es, servedEvent e = true) :
    ∃ k, k ≤ es.length + 1 ∧ ∃ t, Host.Core.run Sys2Proof.core k s = .next t ∧ t.pend = none ∧
      t.status.busy = false := by
  induction es generalizing s with
  | nil =>
    obtain ⟨t, hcore, ht⟩ := hc.coreStep_completes hp
    exact ⟨1, le_rfl, t, run_succ_of_next ((step_of_no_input hin).trans hcore), ht⟩
  | cons ev rest ih =>
    cases ev with
    | core =>
      obtain ⟨t, hcore, ht⟩ := (hc.withOwnFields rest s.reply s.draws).coreStep_completes hp
      exact ⟨1, by simp, t, run_succ_of_next ((step_of_core_next hin).trans hcore), ht⟩
    | reset => cases hserved .reset (by simp)
    | host a =>
      have hb : s.status.busy = true := by rw [show s.status.busy = s.pend.isSome from hc.busyPend, hp]; rfl
      obtain ⟨u, hhost⟩ := hostStep_of_served (hserved (.host a) (by simp)) (setInputs rest s)
      have hstep : step s = .next u := (step_of_host_next hin).trans hhost
      obtain ⟨e, r, d, hu⟩ := hostStep_busy (s := setInputs rest s) hb hhost
      obtain ⟨k, hk, t, hrun, ht⟩ :=
        ih (by rw [hu]; rfl) (hc.step hstep) (by rw [hu]; exact hp)
          fun ev hev => hserved ev (List.mem_cons_of_mem _ hev)
      exact ⟨k + 1, by simpa using hk, t, (run_succ_of_next hstep).trans hrun, ht⟩

/-! ### The commands without a check of their own -/

theorem acceptanceError_of_keyless {i : Instr} (s : State) (hkexp : i ≠ .kexp) (henc : i ≠ .enc) (hdec : i ≠ .dec)
    (hark : ∀ r, i ≠ .ark r) : acceptanceError i s = none :=
  acceptanceError_eq_none (absurd · hkexp) (absurd · (not_or.2 ⟨henc, hdec⟩)) fun r hr => absurd hr (hark r)

end Sys2Proof.Machine

section
open Sys2Proof Sys2Proof.Machine

/-- Settles O27: the core's turn runs the decoded word on the state with its own turn taken off. -/
theorem coreTurnRunsTheDecodedCommand : Obligations.CoreTurnRunsTheDecodedCommand := fun s _ _ hp hd =>
  ⟨fun hin => (step_of_no_input hin).trans (coreStep_of_command hp hd),
   fun rest hin => (step_of_core_next hin).trans (coreStep_of_command (s := setInputs rest s) hp hd)⟩

/-- Settles O28: the head of the list of inputs says whose step it is. -/
theorem stepIsOneAgentsTurn : Obligations.StepIsOneAgentsTurn := fun s rest =>
  ⟨fun _ => step_of_host_next, step_of_reset_next, fun _ _ => step_of_core_next, fun _ _ => step_of_no_input,
   fun hp hin => (step_of_core_next hin).trans (coreStep_of_no_pending (s := setInputs rest s) hp),
   fun hp hin => (step_of_no_input hin).trans (coreStep_of_no_pending hp)⟩

/-- Settles O29: completion after acceptance overwrites the PEND and BUSY that acceptance wrote; a refused command
leaves a ready core nothing to retire. -/
theorem offerThenCompletionIsTheCommand : Obligations.OfferThenCompletionIsTheCommand := by
  intro w s i hs hd
  have ⟨hb, he, _⟩ := hs
  constructor
  · intro ha
    refine ⟨_, exec_of_passed ha, ?_⟩
    rw [offer_idle_passed hb he hd ha, coreStep_accept hd ha, exec_of_passed ha]
  · intro hne
    obtain ⟨e, ha⟩ := Option.ne_none_iff_exists'.1 hne
    rw [exec_eq, ha, runCommand_failed, retire_raise_of_ready e hs, offer_idle_failed hb he hd ha]

/-- Settles O30: by induction on the inputs that are left. -/
theorem pendingCommandCompletesInTime : Obligations.PendingCommandCompletesInTime := fun _ _ hc hp hserved =>
  completes_within rfl hc hp hserved

/-- Settles O31: the host reaches only ERR, which no check and no effect reads. -/
theorem hostCannotReachAPendingCommand : Obligations.HostCannotReachAPendingCommand := by
  intro s u t w i as hb hp hd ha hhost hcore
  cases ((coreStep_of_command hp hd).trans (exec_of_passed ha)).symm.trans hcore
  obtain ⟨e, r, d, hu⟩ := hostAll_busy hb hhost
  have hpu : u.pend = some w := by rw [hu]; exact hp
  have hau : acceptanceError i u = none := by rw [hu, ← ha]; exact acceptanceError_congr i s _ rfl rfl rfl
  refine ⟨_, (coreStep_of_command hpu hd).trans (exec_of_passed hau), ?_⟩
  rw [hu, effectOf_withErr]
  exact ⟨rfl, rfl, rfl, rfl, rfl, rfl, rfl, rfl, rfl, rfl⟩

/-- Settles O51: the checks that a core without a key fails are those of KEXP, ENC, DEC and ARK. -/
theorem freshCoreRunsOnlyKeylessCommands : Obligations.FreshCoreRunsOnlyKeylessCommands := by
  intro s i hs hv hlen hwf
  have ⟨hb, he, _⟩ := hs
  refine ⟨?_, fun hi => ?_, fun hkexp henc hdec hark => ?_⟩
  · rintro rfl
    have hlegal : legalKeyLength s.keylen = false := by rw [hlen]; rfl
    exact (offer_kexp_of_illegal hs hlegal).trans (raise_invalidKeyLength_of_idle hb he)
  · exact offer_encode_noRoundKeys hs hwf (acceptanceError_of_no_roundKeys hi hv)
  · have ha := acceptanceError_of_keyless s hkexp henc hdec hark
    have hexec := exec_of_passed ha
    obtain ⟨hW, hstatus⟩ : (effectOf i s).W = s.W ∧ (effectOf i s).status = s.status := by
      obtain ⟨-, -, -, -, -, -, -, -, hother⟩ := effectOf_frame i s
      exact hother hkexp
    refine ⟨offer_encode hs hwf ha, _, ?_, hexec, rfl, ?_, effectOf_K i s, effectOf_keylen i s, hW⟩
    · rw [offer_encode hs hwf ha, coreStep_accept (decode_encode hwf) ha, hexec]
    · rw [retire_status, hstatus, ← hb]

end
end

section
/-! SUPPORT. The laws of gmul beside `gmul_comm` and `xor_gmul`, the inverse of a byte, and the tables by it; from them
the statements about the field (40_galois_field.md) and the tables (41_sbox.md). -/

namespace Sys2Proof.Machine

/-! ### The field (40_galois_field.md section 2) -/

theorem gmul_assoc (a b c : Byte) : gmul (gmul a b) c = gmul a (gmul b c) := by
  rw [gmul_comm a b, gmul_right_comm, gmul_comm]

theorem gmul_xor (a b c : Byte) : gmul a (b ^^^ c) = gmul a b ^^^ gmul a c := by
  rw [gmul_comm a, xor_gmul, gmul_comm b, gmul_comm c]

theorem zero_gmul (a : Byte) : gmul 0 a = 0 := by
  simpa using xor_gmul a a a

theorem gmul_zero (a : Byte) : gmul a 0 = 0 := by
  rw [gmul_comm, zero_gmul]

/-- The inverse of a non-zero byte, read from the S-box table: its entry taken back through the affine map
(41_sbox.md R122). -/
def gmulInverse (a : Byte) : Byte :=
  (sbox a).rotateLeft 1 ^^^ (sbox a).rotateLeft 3 ^^^ (sbox a).rotateLeft 6 ^^^ 0x05

theorem gmul_gmulInverse : ∀ a : Byte, a ≠ 0 → gmul a (gmulInverse a) = 1 := by decide +kernel

theorem ne_zero_of_gmul_eq_one {a b : Byte} (h : gmul a b = 1) : a ≠ 0 := by
  rintro rfl
  cases (zero_gmul b).symm.trans h

/-- A byte has at most one inverse. -/
theorem eq_gmulInverse {a b : Byte} (h : gmul a b = 1) : b = gmulInverse a :=
  calc b = gmul (gmul a (gmulInverse a)) b := by rw [gmul_gmulInverse a (ne_zero_of_gmul_eq_one h), one_gmul]
    _ = gmul (gmul a b) (gmulInverse a) := gmul_right_comm a (gmulInverse a) b
    _ = gmulInverse a := by rw [h, one_gmul]

/-! ### The tables (41_sbox.md) -/

theorem sbox_eq_affine_gmulInverse : ∀ x : Byte, sbox x = affine (gmulInverse x) := by decide +kernel

/-- The forward table undoes the inverse one, since the inverse one undoes it and there are 256 bytes. -/
@[simp] theorem sbox_isbox (y : Byte) : sbox (isbox y) = y := by
  have hinj : Function.Injective sbox := Function.LeftInverse.injective isbox_sbox
  obtain ⟨x, rfl⟩ := Finite.surjective_of_injective hinj y
  rw [isbox_sbox]

theorem sbox_ne_self : ∀ x : Byte, sbox x ≠ x := by decide +kernel

theorem sbox_ne_complement : ∀ x : Byte, sbox x ≠ x ^^^ 0xFF := by decide +kernel

end Sys2Proof.Machine

section
open Sys2Proof Sys2Proof.Machine

/-- Settles O7: the S-box table gives each non-zero byte an inverse, and no byte has two. -/
theorem gmulObeysTheFieldLaws : Obligations.GmulObeysTheFieldLaws :=
  ⟨gmul_comm, gmul_assoc, gmul_xor, one_gmul, zero_gmul, fun a ha =>
    ⟨gmulInverse a, gmul_gmulInverse a ha, fun _ => eq_gmulInverse⟩⟩

/-- Settles O8: each constant is a sum of powers of 2. -/
theorem datapathMultiplesAreProducts : Obligations.DatapathMultiplesAreProducts := fun b =>
  ⟨one_gmul b, two_gmul b, three_gmul b, nine_gmul b, eleven_gmul b, thirteen_gmul b, fourteen_gmul b⟩

/-- Settles O10: an inverse of `x` is `gmulInverse x`, whose affine image the table holds. -/
theorem sboxIsTheAffineImageOfTheInverse : Obligations.SboxIsTheAffineImageOfTheInverse := by
  refine ⟨fun x y h => ?_, rfl, fun x => ⟨isbox_sbox x, sbox_isbox x, sbox_ne_self x, sbox_ne_complement x⟩⟩
  rw [eq_gmulInverse h]
  exact sbox_eq_affine_gmulInverse x

end
end

section
/-! SUPPORT. The inverse and commuting laws of the round functions, and the cipher and its inverse taken round by round;
from them the statements about the round functions (43_round_ops.md section 1), the first round key (42_key_expansion.md
section 3) and the block transform (44_block_transform.md). -/

namespace Sys2Proof.Machine

/-! ### The round functions undo each other (43_round_ops.md section 1) -/

section
variable (T k : Block)

@[simp] theorem invShiftRows_shiftRows : invShiftRows (shiftRows T) = T :=
  block_ext _ _ fun r c => by rw [blockGet_invShiftRows, blockGet_shiftRows, sub_add_cancel]

@[simp] theorem shiftRows_invShiftRows : shiftRows (invShiftRows T) = T :=
  block_ext _ _ fun r c => by rw [blockGet_shiftRows, blockGet_invShiftRows, add_sub_cancel_right]

@[simp] theorem invSubBytes_subBytes : invSubBytes (subBytes T) = T :=
  block_ext _ _ fun r c => by rw [blockGet_invSubBytes, blockGet_subBytes, isbox_sbox]

@[simp] theorem subBytes_invSubBytes : subBytes (invSubBytes T) = T :=
  block_ext _ _ fun r c => by rw [blockGet_subBytes, blockGet_invSubBytes, sbox_isbox]

@[simp] theorem addRoundKey_addRoundKey : addRoundKey (addRoundKey T k) k = T :=
  block_ext _ _ fun r c => by
    rw [blockGet_addRoundKey, blockGet_addRoundKey, BitVec.xor_assoc, BitVec.xor_self, BitVec.xor_zero]

theorem subBytes_shiftRows : subBytes (shiftRows T) = shiftRows (subBytes T) :=
  block_ext _ _ fun r c => by rw [blockGet_subBytes, blockGet_shiftRows, blockGet_shiftRows, blockGet_subBytes]

theorem invSubBytes_invShiftRows : invSubBytes (invShiftRows T) = invShiftRows (invSubBytes T) :=
  block_ext _ _ fun r c => by
    rw [blockGet_invSubBytes, blockGet_invShiftRows, blockGet_invShiftRows, blockGet_invSubBytes]

theorem invMixColumns_addRoundKey :
    invMixColumns (addRoundKey T k) = addRoundKey (invMixColumns T) (invMixColumns k) := by
  simp only [addRoundKey_eq_quadXor, invMixColumns, blockMapColumns, invMixColumn_xor]

end

/-! Both column matrices are linear and circulant, so their product is known by its value on columns with one byte. -/

theorem mixColumn_rotWord (a : Quad) : mixColumn (rotWord a) = rotWord (mixColumn a) := by
  simp only [mixColumn, rotWord, Quad.mk.injEq]
  exact ⟨by ac_rfl, by ac_rfl, by ac_rfl, by ac_rfl⟩

theorem invMixColumn_rotWord (a : Quad) : invMixColumn (rotWord a) = rotWord (invMixColumn a) := by
  simp only [invMixColumn, rotWord, Quad.mk.injEq]
  exact ⟨by ac_rfl, by ac_rfl, by ac_rfl, by ac_rfl⟩

theorem eq_self_of_circulant {f : Quad → Quad} (hxor : ∀ v w, f (quadXor v w) = quadXor (f v) (f w))
    (hrot : ∀ a, f (rotWord a) = rotWord (f a)) (hbyte : ∀ b, f ⟨b, 0, 0, 0⟩ = ⟨b, 0, 0, 0⟩) (a : Quad) : f a = a := by
  have h3 (b : Byte) : f ⟨0, 0, 0, b⟩ = ⟨0, 0, 0, b⟩ := (hrot ⟨b, 0, 0, 0⟩).trans (congrArg rotWord (hbyte b))
  have h2 (b : Byte) : f ⟨0, 0, b, 0⟩ = ⟨0, 0, b, 0⟩ := (hrot ⟨0, 0, 0, b⟩).trans (congrArg rotWord (h3 b))
  have h1 (b : Byte) : f ⟨0, b, 0, 0⟩ = ⟨0, b, 0, 0⟩ := (hrot ⟨0, 0, b, 0⟩).trans (congrArg rotWord (h2 b))
  rw [quad_split a, hxor, hxor, hxor, hbyte, h1, h2, h3]

/-- The library's `BitVec.xor_zero`, with the zero written as the model writes it. -/
theorem byte_xor_zero (b : Byte) : b ^^^ 0 = b := BitVec.xor_zero

/-- The first column of the matrix product, in the field: 14·2 + 11·1 + 13·1 + 9·3 = 1, and the other three are 0. -/
theorem invMixColumn_mixColumn_byte (b : Byte) : invMixColumn (mixColumn ⟨b, 0, 0, 0⟩) = ⟨b, 0, 0, 0⟩ := by
  simp only [mixColumn_eq_products, invMixColumn_eq_products, gmul_zero, byte_xor_zero, ← gmul_assoc, ← xor_gmul]
  change (⟨gmul 1 b, gmul 0 b, gmul 0 b, gmul 0 b⟩ : Quad) = _
  rw [one_gmul, zero_gmul]

theorem mixColumn_invMixColumn_byte (b : Byte) : mixColumn (invMixColumn ⟨b, 0, 0, 0⟩) = ⟨b, 0, 0, 0⟩ := by
  simp only [mixColumn_eq_products, invMixColumn_eq_products, gmul_zero, byte_xor_zero, ← gmul_assoc, ← xor_gmul]
  change (⟨gmul 1 b, gmul 0 b, gmul 0 b, gmul 0 b⟩ : Quad) = _
  rw [one_gmul, zero_gmul]

theorem invMixColumn_mixColumn (a : Quad) : invMixColumn (mixColumn a) = a :=
  eq_self_of_circulant (f := fun a => invMixColumn (mixColumn a)) (fun v w => by rw [mixColumn_xor, invMixColumn_xor])
    (fun a => by rw [mixColumn_rotWord, invMixColumn_rotWord]) invMixColumn_mixColumn_byte a

theorem mixColumn_invMixColumn (a : Quad) : mixColumn (invMixColumn a) = a :=
  eq_self_of_circulant (f := fun a => mixColumn (invMixColumn a)) (fun v w => by rw [invMixColumn_xor, mixColumn_xor])
    (fun a => by rw [invMixColumn_rotWord, mixColumn_rotWord]) mixColumn_invMixColumn_byte a

@[simp] theorem invMixColumns_mixColumns (T : Block) : invMixColumns (mixColumns T) = T := by
  simp only [invMixColumns, mixColumns, blockMapColumns, invMixColumn_mixColumn]

@[simp] theorem mixColumns_invMixColumns (T : Block) : mixColumns (invMixColumns T) = T := by
  simp only [invMixColumns, mixColumns, blockMapColumns, mixColumn_invMixColumn]

/-! ### The ciphers undo each other (44_block_transform.md) -/

section
variable (rk : Nat → Block) (n nr : Nat) (T : Block)

/-- DEC's middle rounds take ENC's back, between the SubBytes and ShiftRows of the final round. -/
theorem decRounds_encRounds :
    decRounds rk n (shiftRows (subBytes (encRounds rk n 1 T))) = shiftRows (subBytes T) := by
  induction n with
  | zero => rfl
  | succ n ih =>
    have hround (k E : Block) : decRound k (shiftRows (subBytes (encRound k E))) = shiftRows (subBytes E) := by
      simp [encRound, decRound]
    rw [decRounds, encRounds_succ_last, Nat.add_comm 1 n, hround, ih]

/-- ENC's middle rounds take DEC's back, between the InvShiftRows and InvSubBytes of the final round. -/
theorem encRounds_decRounds :
    encRounds rk n 1 (invSubBytes (invShiftRows (decRounds rk n T))) = invSubBytes (invShiftRows T) := by
  induction n generalizing T with
  | zero => rfl
  | succ n ih =>
    have hround (k D : Block) :
        encRound k (invSubBytes (invShiftRows (decRound k D))) = invSubBytes (invShiftRows D) := by
      simp [encRound, decRound]
    rw [decRounds, encRounds_succ_last, Nat.add_comm 1 n, ih, hround]

theorem decryptBlock_encryptBlock : decryptBlock rk nr (encryptBlock rk nr T) = T := by
  simp [decryptBlock, encryptBlock, decRounds_encRounds]

theorem encryptBlock_decryptBlock : encryptBlock rk nr (decryptBlock rk nr T) = T := by
  simp [decryptBlock, encryptBlock, encRounds_decRounds]

end

/-! ### ENC and DEC on states -/

section
variable {s : State} (hv : s.status.valid = true)
include hv

theorem exec_enc : exec .enc s = .next (retire (setBlock (encryptBlock (roundKey s) (roundCount s) s.S) s)) :=
  exec_of_passed (i := .enc) (roundKeysError_of_valid hv)

theorem exec_dec : exec .dec s = .next (retire (setBlock (decryptBlock (roundKey s) (roundCount s) s.S) s)) :=
  exec_of_passed (i := .dec) (roundKeysError_of_valid hv)

/-- DEC takes ENC back, and leaves the command retired. -/
theorem exec_enc_dec : ∃ t, exec .enc s = .next t ∧ exec .dec t = .next (retire s) := by
  refine ⟨_, exec_enc hv, (exec_dec (by exact hv)).trans ?_⟩
  exact congrArg (fun T => Host.Outcome.next (retire (setBlock T s)))
    (decryptBlock_encryptBlock (roundKey s) (roundCount s) s.S)

/-- ENC takes DEC back, and leaves the command retired. -/
theorem exec_dec_enc : ∃ t, exec .dec s = .next t ∧ exec .enc t = .next (retire s) := by
  refine ⟨_, exec_dec hv, (exec_enc (by exact hv)).trans ?_⟩
  exact congrArg (fun T => Host.Outcome.next (retire (setBlock T s)))
    (encryptBlock_decryptBlock (roundKey s) (roundCount s) s.S)

end

theorem execAll_pair {i j : Instr} {s t u : State} (hi : exec i s = .next t) (hj : exec j t = .next u) :
    execAll [i, j] s = .next u := by
  simp only [execAll, hi, hj]

/-! ### The first round key (42_key_expansion.md section 3) -/

theorem roundKeyWord_retire (s : State) (i : Nat) : roundKeyWord (retire s) i = roundKeyWord s i := rfl

/-- Serialized byte `k` of RK(n) is byte `k mod 4` of the round key's word `k div 4` (10_state.md R22, R26). -/
theorem stateToBytes_roundKey (s : State) (n : Nat) (k : Fin 16) :
    stateToBytes (roundKey s n) k = quadGet (roundKeyWord s (4 * n + k.val / 4)) (Fin.ofNat 4 k.val) :=
  blockGet_roundKey _ _ s n

/-- After KEXP the words of W below Nk are the key's (42_key_expansion.md R134, R137). -/
theorem roundKeyWord_expandKey {s : State} {nk i : Nat} (hnk : nkOf s.keylen = nk) (hmax : nk ≤ 8) (hi : i < nk) :
    roundKeyWord (expandKey s) i = (masterKey s nk).getD i quadZero := by
  have hkey := (masterKey_length s nk).trans (min_eq_left hmax)
  have hW : (expandKey s).W = roundKeyFile (expand (masterKey s nk) nk) := by rw [expandKey, setRoundKeys_W, hnk]
  let j : Fin 60 := ⟨i, by omega⟩
  calc roundKeyWord (expandKey s) i = (expandKey s).W[j] := roundKeyWord_eq_getElem (expandKey s) j
    _ = (expand (masterKey s nk) nk).getD i quadZero := by rw [hW, roundKeyFile_getElem]
    _ = (masterKey s nk).getD i quadZero := expand_getD_key hkey hi

/-! ### The primitive commands as functions of the block (30_encoding.md section 5) -/

/-- What a primitive round command makes of the block; the other commands leave it. -/
def blockEffect (rk : Nat → Block) : Block → Instr → Block
  | T, .ark r => addRoundKey T (rk r)
  | T, .sb => subBytes T
  | T, .isb => invSubBytes T
  | T, .sr => shiftRows T
  | T, .isr => invShiftRows T
  | T, .mc => mixColumns T
  | T, .imc => invMixColumns T
  | T, .nop | T, .kexp | T, .enc | T, .dec | T, .xtime _ | T, .gmul _ _ | T, .sbox _ | T, .isbox _ => T

/-- A primitive round command, with a round index up to `nr`. -/
def isRoundCommand (nr : Nat) : Instr → Prop
  | .ark r => r ≤ nr
  | .sb | .isb | .sr | .isr | .mc | .imc => True
  | .nop | .kexp | .enc | .dec | .xtime _ | .gmul _ _ | .sbox _ | .isbox _ => False

section
variable {s : State} (hv : s.status.valid = true)
include hv

theorem exec_roundCommand {i : Instr} (hi : isRoundCommand s.status.nr.toNat i) :
    exec i s = .next (retire (setBlock (blockEffect (roundKey s) s.S i) s)) := by
  cases i with
  | ark r => exact exec_of_passed (i := .ark r) (roundIndexError_of_legal hv hi)
  | sb | isb | sr | isr | mc | imc => exact exec_of_passed rfl
  | nop | kexp | enc | dec | xtime | gmul | sbox | isbox => exact hi.elim

/-- Round commands in a row compose on the block, and nothing else of a retired state changes. -/
theorem execAll_roundCommands {is : List Instr} (his : ∀ i ∈ is, isRoundCommand s.status.nr.toNat i) (T : Block) :
    execAll is (retire (setBlock T s)) = .next (retire (setBlock (is.foldl (blockEffect (roundKey s)) T) s)) := by
  induction is generalizing T with
  | nil => rfl
  | cons i is ih =>
    have hexec : exec i (retire (setBlock T s)) = .next (retire (setBlock (blockEffect (roundKey s) T i) s)) :=
      exec_roundCommand (s := retire (setBlock T s)) hv (his i (by simp))
    rw [execAll, hexec]
    exact ih (fun j hj => his j (List.mem_cons_of_mem _ hj)) _

/-- The first of several round commands retires what is pending. -/
theorem execAll_roundCommands_of_ne_nil {is : List Instr} (hne : is ≠ [])
    (his : ∀ i ∈ is, isRoundCommand s.status.nr.toNat i) :
    execAll is s = .next (retire (setBlock (is.foldl (blockEffect (roundKey s)) s.S) s)) := by
  cases is with
  | nil => exact absurd rfl hne
  | cons i is =>
    rw [execAll, exec_roundCommand hv (his i (by simp))]
    exact execAll_roundCommands hv (fun j hj => his j (List.mem_cons_of_mem _ hj)) _

end

/-! ### The commands that ENC and DEC stand for (44_block_transform.md R184) -/

section
variable {nr r : Nat} {i : Instr}

theorem isRoundCommand_of_mem_round (hr : r ≤ nr) (hi : i ∈ roundCommands r) : isRoundCommand nr i := by
  revert i; simp [roundCommands, isRoundCommand, hr]

theorem isRoundCommand_of_mem_fround (hr : r ≤ nr) (hi : i ∈ froundCommands r) : isRoundCommand nr i := by
  revert i; simp [froundCommands, isRoundCommand, hr]

theorem isRoundCommand_of_mem_iround (hr : r ≤ nr) (hi : i ∈ iroundCommands r) : isRoundCommand nr i := by
  revert i; simp [iroundCommands, isRoundCommand, hr]

theorem isRoundCommand_of_mem_ifround (hi : i ∈ ifroundCommands) : isRoundCommand nr i := by
  revert i; simp [ifroundCommands, isRoundCommand]

theorem isRoundCommand_of_mem_encCommands (hi : i ∈ encCommands nr) : isRoundCommand nr i := by
  simp only [encCommands, List.mem_cons, List.mem_append, List.mem_flatMap, List.mem_range'_1] at hi
  obtain rfl | ⟨r, hr, hi⟩ | hi := hi
  · exact Nat.zero_le nr
  · exact isRoundCommand_of_mem_round (by omega) hi
  · exact isRoundCommand_of_mem_fround le_rfl hi

theorem isRoundCommand_of_mem_decCommands (hi : i ∈ decCommands nr) : isRoundCommand nr i := by
  simp only [decCommands, List.mem_cons, List.mem_append, List.mem_flatMap, List.mem_reverse, List.mem_range'_1] at hi
  obtain rfl | ⟨r, hr, hi⟩ | hi := hi
  · exact le_refl nr
  · exact isRoundCommand_of_mem_iround (by omega) hi
  · exact isRoundCommand_of_mem_ifround hi

end

theorem encCommands_ne_nil (nr : Nat) : encCommands nr ≠ [] := List.cons_ne_nil _ _

theorem decCommands_ne_nil (nr : Nat) : decCommands nr ≠ [] := List.cons_ne_nil _ _

theorem foldl_encCommands (rk : Nat → Block) (nr : Nat) (T : Block) :
    (encCommands nr).foldl (blockEffect rk) T = encryptBlock rk nr T := by
  simp only [encCommands, List.foldl_cons, List.foldl_append, List.foldl_flatMap]
  rw [encryptBlock, encRounds_eq_foldl]
  rfl

theorem foldl_decCommands (rk : Nat → Block) (nr : Nat) (T : Block) :
    (decCommands nr).foldl (blockEffect rk) T = decryptBlock rk nr T := by
  simp only [decCommands, List.foldl_cons, List.foldl_append, List.foldl_flatMap]
  rw [decryptBlock, decRounds_eq_foldl]
  rfl

end Sys2Proof.Machine

section
open Sys2Proof Sys2Proof.Machine

/-- Settles O14: the first four words of the schedule are the key's own. -/
theorem firstRoundKeyIsTheKeysFirstBytes : Obligations.FirstRoundKeyIsTheKeysFirstBytes := by
  intro s t hlen h k
  obtain ⟨nk, hnk⟩ : ∃ nk, (nk = 4 ∧ s.keylen = 16) ∨ (nk = 6 ∧ s.keylen = 24) ∨ (nk = 8 ∧ s.keylen = 32) := by
    simpa [exists_or] using hlen
  obtain ⟨hlegal, hnkOf, -, hmax⟩ := nkOf_of_keylen hnk
  cases (exec_kexp_of_legal hlegal).symm.trans h
  rw [stateToBytes_roundKey, Nat.mul_zero, Nat.zero_add, roundKeyWord_retire,
    roundKeyWord_expandKey hnkOf hmax (by omega)]
  exact masterKey_byte s nk (k.castLE (by decide)) (by rw [Fin.val_castLE]; omega)

/-- Settles O19: row by row for the shifts, byte by byte for the tables, and by linearity for the columns. -/
theorem roundFunctionsObeyTheirInverseLaws : Obligations.RoundFunctionsObeyTheirInverseLaws := fun T k =>
  ⟨invShiftRows_shiftRows T, shiftRows_invShiftRows T, invSubBytes_subBytes T, subBytes_invSubBytes T,
   invMixColumns_mixColumns T, mixColumns_invMixColumns T, addRoundKey_addRoundKey T k, subBytes_shiftRows T,
   invSubBytes_invShiftRows T, invMixColumns_addRoundKey T k⟩

/-- Settles O22: each middle round of the one transform takes a middle round of the other back. -/
theorem encAndDecUndoEachOther : Obligations.EncAndDecUndoEachOther := by
  refine ⟨fun s hv => ⟨exec_enc_dec hv, exec_dec_enc hv⟩, fun s x hlen => ?_⟩
  have hk := exec_kexp_of_legal (s := s) (decide_eq_true hlen)
  have hv : (setBlock x (retire (expandKey s))).status.valid = true := rfl
  obtain ⟨t, hE, hED⟩ := exec_enc_dec hv
  obtain ⟨u, hD, hDE⟩ := exec_dec_enc hv
  exact ⟨_, _, _, hk, execAll_pair hE hED, rfl, execAll_pair hD hDE, rfl⟩

/-- Settles O23: the primitive commands' effects compose to the rounds of the transform. -/
theorem primitiveCommandsComposeToTheTransform : Obligations.PrimitiveCommandsComposeToTheTransform := by
  intro s hv
  refine ⟨?_, ?_, _, _, exec_enc hv, exec_dec hv⟩
  · rw [execAll_roundCommands_of_ne_nil hv (encCommands_ne_nil _) fun i => isRoundCommand_of_mem_encCommands,
      foldl_encCommands, exec_enc hv, roundCount]
  · rw [execAll_roundCommands_of_ne_nil hv (decCommands_ne_nil _) fun i => isRoundCommand_of_mem_decCommands,
      foldl_decCommands, exec_dec hv, roundCount]

end
end

section
/-! SUPPORT. Reads and writes made twice, the block loaded through the window, the window's addresses, and the lines of
the WAIT loop; from them the statements about 20_memory.md sections 1, 2 and 4 and WAIT (30_encoding.md section 5). -/

namespace Sys2Proof.Machine

/-! ### Accesses made twice (20_memory.md section 4) -/

theorem readReg_setReply (reply : Reply) (s : State) (r : Reg) : readReg (setReply reply s) r = readReg s r := by
  cases r <;> rfl

/-- A read on an idle core answers the same again. -/
theorem hostRead_hostRead (r : Reg) {s : State} (hb : s.status.busy = false) :
    hostRead r (hostRead r s) = hostRead r s := by
  have hread : hostRead r s = setReply (.data (readReg s r)) s := hostRead_exact r s (.inl hb)
  rw [hread, hostRead_exact r (setReply (.data (readReg s r)) s) (.inl hb), readReg_setReply]
  rfl

theorem raise_busy_twice (s : State) :
    raise .busy (setReply .done (raise .busy s)) = setReply .done (raise .busy s) := by
  have herr : (raise .busy s).status.err ≠ 0 := by
    change (if s.status.err = 0 then (5 : BitVec 4) else s.status.err) ≠ 0
    split
    · decide
    · assumption
  change recordError .busy (setReply .done (raise .busy s)) = _
  rw [recordError, setReply_status, if_neg herr]
  rfl

/-- A data write is idempotent, performed or dropped, if the write itself is and leaves BUSY alone. -/
theorem writeUnlessBusy_twice {f : State → State} (hbusy : ∀ s, (f s).status.busy = s.status.busy)
    (hf : ∀ s, f (setReply .done (f s)) = setReply .done (f s)) (s : State) :
    writeUnlessBusy f (setReply .done (writeUnlessBusy f s)) = setReply .done (writeUnlessBusy f s) := by
  cases hb : s.status.busy with
  | true =>
    rw [writeUnlessBusy_busy f s hb, writeUnlessBusy_busy f (setReply .done (raise .busy s)) hb, raise_busy_twice]
  | false => rw [writeUnlessBusy_idle f s hb, writeUnlessBusy_idle f (setReply .done (f s)) ((hbusy s).trans hb), hf]

theorem hostWrite_twice_of_unlessBusy {r : Reg} {v : Word} {f : State → State}
    (hr : ∀ s, writeReg r v s = writeUnlessBusy f s) (hbusy : ∀ s, (f s).status.busy = s.status.busy)
    (hf : ∀ s, f (setReply .done (f s)) = setReply .done (f s)) (s : State) :
    hostWrite r v (hostWrite r v s) = hostWrite r v s := by
  rw [hostWrite, hostWrite, hr, hr, writeUnlessBusy_twice hbusy hf]
  rfl

theorem blockSetColumn_twice (T : Block) (c : Fin 4) (q : Quad) :
    blockSetColumn (blockSetColumn T c q) c q = blockSetColumn T c q :=
  block_ext _ _ fun r c' => by simp only [blockGet_blockSetColumn]; split <;> rfl

theorem setKeyWord_twice (j : Fin 8) (q : Quad) (s : State) :
    setKeyWord j q (setReply .done (setKeyWord j q s)) = setReply .done (setKeyWord j q s) := by
  simp [setKeyWord, setReply]

/-- A write of any register but CMD is idempotent. -/
theorem hostWrite_hostWrite {r : Reg} (hr : r ≠ .cmd) (v : Word) (s : State) :
    hostWrite r v (hostWrite r v s) = hostWrite r v s := by
  cases r with
  | cmd => exact absurd rfl hr
  | gfres | rkw | reserved => rfl
  | status =>
    simp only [hostWrite, writeReg_status, setReply]
    split <;> rfl
  | keylen =>
    exact hostWrite_twice_of_unlessBusy (f := setKeylen (v.extractLsb' 0 8)) (fun _ => rfl) (fun _ => rfl)
      (fun _ => rfl) s
  | key j =>
    exact hostWrite_twice_of_unlessBusy (f := setKeyWord j (quadOfWord v)) (fun _ => rfl) (fun _ => rfl)
      (setKeyWord_twice j (quadOfWord v)) s
  | state c =>
    exact hostWrite_twice_of_unlessBusy (f := fun u => setBlock (blockSetColumn u.S c (quadOfWord v)) u)
      (fun _ => rfl) (fun _ => rfl)
      (fun u => congrArg (fun T => setReply .done (setBlock T u)) (blockSetColumn_twice u.S c (quadOfWord v))) s

/-! ### A block loaded through the window (10_state.md R22, 20_memory.md R53) -/

theorem hostStep_write_column {off : BitVec 12} {c : Fin 4} {s : State} (v : Word) (T : Block) (r : Reply)
    (h4 : off.toNat % 4 = 0) (hr : regAt off = .state c) (hb : s.status.busy = false) :
    hostStep (.write .w32 off v) { s with S := T, reply := r } =
      .next { s with S := blockSetColumn T c (quadOfWord v), reply := .done } :=
  hostStep_write_eq v h4 hr (writeReg_state_idle c v { s with S := T, reply := r } hb)

theorem hostStep_read_column {off : BitVec 12} {c : Fin 4} {v : Word} {t : State} (h4 : off.toNat % 4 = 0)
    (hr : regAt off = .state c) (hb : t.status.busy = false) (hc : blockColumn t.S c = quadOfWord v) :
    hostStep (.read .w32 off) t = .next { t with reply := .data v } := by
  rw [hostStep_read_exact h4 hr (.inl hb), readReg, hc, quadToWord_quadOfWord]

/-- The four STATE writes set the four columns, and nothing else of the core. -/
theorem hostAll_loadBlock {s : State} (hb : s.status.busy = false) (v0 v1 v2 v3 : Word) :
    hostAll [.write .w32 0x010 v0, .write .w32 0x014 v1, .write .w32 0x018 v2, .write .w32 0x01C v3] s =
      .next { s with S := ⟨quadOfWord v0, quadOfWord v1, quadOfWord v2, quadOfWord v3⟩, reply := .done } := by
  rw [hostAll, hostStep_write_column (off := 0x010) v0 s.S s.reply rfl (regAt_state 0) hb]
  simp only [hostAll, hostStep_write_column (off := 0x014) v1 _ _ rfl (regAt_state 1) hb,
    hostStep_write_column (off := 0x018) v2 _ _ rfl (regAt_state 2) hb,
    hostStep_write_column (off := 0x01C) v3 _ _ rfl (regAt_state 3) hb]
  rfl

/-- Four words read left to right, bit by bit. -/
theorem getLsbD_append_words (v0 v1 v2 v3 : Word) (i : Nat) : (v0 ++ v1 ++ v2 ++ v3).getLsbD i =
    if i < 32 then v3.getLsbD i else if i < 64 then v2.getLsbD (i - 32)
    else if i < 96 then v1.getLsbD (i - 64) else v0.getLsbD (i - 96) := by
  have h64 : i - 32 - 32 = i - 64 := by omega
  have h96 : i - 64 - 32 = i - 96 := by omega
  simp only [BitVec.getLsbD_append, h64, h96]
  grind

/-- The byte in row `r` of column `c`, in a block of four columns in order from the top bits down. -/
theorem quadGet_of_column {n : Nat} {x : BitVec n} {v : Word} {c : Nat} (hc : c < 4)
    (hv : ∀ j, j < 32 → v.getLsbD j = x.getLsbD (96 - 32 * c + j)) (r : Fin 4) :
    quadGet (quadOfWord v) r = x.extractLsb' (120 - 8 * (4 * c + r.val)) 8 := by
  rw [quadGet_quadOfWord]
  apply BitVec.eq_of_getLsbD_eq
  intro i hi
  have hbit : 96 - 32 * c + (24 - 8 * r.val + i) = 120 - 8 * (4 * c + r.val) + i := by omega
  rw [BitVec.getLsbD_extractLsb', BitVec.getLsbD_extractLsb', hv _ (by omega), hbit]

/-- Serialized byte `k` of the block whose columns are four words is byte `k` of the words. -/
theorem stateToBytes_words (v0 v1 v2 v3 : Word) (k : Fin 16) :
    stateToBytes ⟨quadOfWord v0, quadOfWord v1, quadOfWord v2, quadOfWord v3⟩ k =
      (v0 ++ v1 ++ v2 ++ v3).extractLsb' (120 - 8 * k.val) 8 := by
  have hcell (r c : Fin 4) : blockGet ⟨quadOfWord v0, quadOfWord v1, quadOfWord v2, quadOfWord v3⟩ r c =
      (v0 ++ v1 ++ v2 ++ v3).extractLsb' (120 - 8 * (4 * c.val + r.val)) 8 := by
    match c with
    | 0 => exact quadGet_of_column (c := 0) (by decide) (fun j hj => by grind [getLsbD_append_words]) r
    | 1 => exact quadGet_of_column (c := 1) (by decide) (fun j hj => by grind [getLsbD_append_words]) r
    | 2 => exact quadGet_of_column (c := 2) (by decide) (fun j hj => by grind [getLsbD_append_words]) r
    | 3 => exact quadGet_of_column (c := 3) (by decide) (fun j hj => by grind [getLsbD_append_words]) r
  have hk : 4 * (k.val / 4) + k.val % 4 = k.val := Nat.div_add_mod k.val 4
  rw [stateToBytes, hcell, hk]

/-! ### The window's addresses (20_memory.md R50) -/

theorem offsetOf_eq_some_iff (addr : Nat) (off : BitVec 12) : offsetOf addr = some off ↔ addr = hostAddress off := by
  have hoff : off.toNat < 4096 := off.isLt
  rw [offsetOf, hostAddress]
  split
  · rw [Option.some_inj, ← BitVec.toNat_inj, BitVec.toNat_ofNat]
    omega
  · simp only [reduceCtorEq, false_iff]
    omega

/-! ### The WAIT loop line by line (30_encoding.md R87, R88) -/

theorem hostLines_succ_of_next {h g : HostSystem} (n : Nat) (hstep : hostLineStep h = .next g) :
    hostLines (n + 1) h = hostLines n g := by
  rw [hostLines, hstep]

theorem statusWord_and_one (t : Status) : statusWord t &&& 0x00000001 = 0 ↔ t.busy = false := by
  have hbit : (statusWord t).getLsbD 0 = t.busy := statusWord_getLsbD t 0
  rw [show (0x00000001 : Word) = 1#32 from rfl, BitVec.and_one_eq_setWidth_ofBool_getLsbD, hbit]
  cases t.busy <;> decide

/-- A host at line `pc` of WAIT's expansion. -/
def waitSystem (s : State) (n pc : Nat) (vars : List (HostVar × Word)) : HostSystem :=
  { core := s, prog := waitLines n, pc := pc, vars := vars }

section
variable (s : State) (n : Nat) (vars : List (HostVar × Word))

theorem waitSystem_label : hostLineStep (waitSystem s n 0 vars) = .next (waitSystem s n 1 vars) := rfl

/-- `RD 0x004 -> t` answers STATUS, which is exact at all times (20_memory.md R58). -/
theorem waitSystem_rd : hostLineStep (waitSystem s n 1 vars) =
    .next (waitSystem { s with reply := .data (statusWord s.status) } n 2
      ((waitVar, statusWord s.status) :: vars)) := by
  have hread : hostStep (.read .w32 0x004) s = .next { s with reply := .data (statusWord s.status) } :=
    hostStep_read_exact rfl regAt_status (.inr rfl)
  have hline : (waitLines n)[1]? = some (.op (.rd 0x004 waitVar)) := rfl
  simp only [hostLineStep, waitSystem, hline, hread, assignReply]

/-- `BNZ t, 0x00000001, L` goes back to the label, line 0, when bit 0 of `t` is set. -/
theorem waitSystem_bnz (x : Word) : hostLineStep (waitSystem s n 2 ((waitVar, x) :: vars)) =
    .next (waitSystem s n (if x &&& 0x00000001 = 0 then 3 else 0) ((waitVar, x) :: vars)) := by
  have hline : (waitLines n)[2]? = some (.op (.bnz waitVar 0x00000001 (.fresh n))) := rfl
  have hlabel : labelIndex (waitLines n) (.fresh n) = 0 := by simp [labelIndex, waitLines, List.findIdx_cons]
  simp [hostLineStep, waitSystem, hline, hlabel, hostVar]

/-- One turn of the loop. -/
theorem hostLines_waitSystem : hostLines 3 (waitSystem s n 0 vars) =
    .next (waitSystem { s with reply := .data (statusWord s.status) } n (if s.status.busy then 0 else 3)
      ((waitVar, statusWord s.status) :: vars)) := by
  rw [hostLines_succ_of_next 2 (waitSystem_label s n vars), hostLines_succ_of_next 1 (waitSystem_rd s n vars),
    hostLines_succ_of_next 0 (waitSystem_bnz _ n vars _), hostLines]
  simp only [statusWord_and_one]
  cases s.status.busy <;> rfl

end

end Sys2Proof.Machine

section
open Sys2Proof Sys2Proof.Machine

/-- Settles O46: a read reads nothing that a read writes, and a write of any register but CMD is idempotent. -/
theorem readsChangeNothingAndDataWritesAreIdempotent : Obligations.ReadsChangeNothingAndDataWritesAreIdempotent := by
  constructor
  · intro s t width off h
    obtain ⟨_, hread, h4, rfl⟩ | ⟨_, _, hwrite, -⟩ := hostStep_cases h
    · cases hread
      refine ⟨hostRead_frame (regAt off) s, fun hb => ?_⟩
      rw [hostStep_read off _ h4, hostRead_hostRead (regAt off) hb]
    · cases hwrite
  · intro s t off v hlow hhigh h
    obtain ⟨_, hread, -⟩ | ⟨_, _, hwrite, h4, rfl⟩ := hostStep_cases h
    · cases hread
    · cases hwrite
      have hcmd : regAt off ≠ .cmd := by
        rw [Ne, regAt_eq_cmd_iff h4]
        rintro rfl
        simp at hlow
      rw [hostStep_write off v _ h4, hostWrite_hostWrite hcmd]

/-- Settles O47: each write sets its column, and the columns in order are the block's bytes in serialized order. -/
theorem loadedBlockReadsBack : Obligations.LoadedBlockReadsBack := by
  intro s v0 v1 v2 v3 hb
  exact ⟨_, hostAll_loadBlock hb v0 v1 v2 v3, stateToBytes_words v0 v1 v2 v3, bytesToState_stateToBytes _, rfl, rfl,
    rfl, rfl, rfl, rfl, hostStep_read_column rfl (regAt_state 0) hb rfl,
    hostStep_read_column rfl (regAt_state 1) hb rfl, hostStep_read_column rfl (regAt_state 2) hb rfl,
    hostStep_read_column rfl (regAt_state 3) hb rfl⟩

/-- Settles O48: BASE is 4096 times its page number, and an offset is an address less BASE. -/
theorem windowIsFourKilobytesAtBase : Obligations.WindowIsFourKilobytesAtBase :=
  ⟨Nat.mul_mod_right 4096 Config.basePage, offsetOf_eq_some_iff⟩

/-- Settles O49: label, read and branch, one line after another. -/
theorem waitLoopsWhileBusy : Obligations.WaitLoopsWhileBusy := fun s n vars => ⟨_, hostLines_waitSystem s n vars⟩

end
end
